-- ==== Sys2Proof/Word.lean ====
section
/-! DEFINITION. The words of the machine: a byte and a 128-bit block. -/

namespace Sys2Proof

/-- A byte is 8 bits (00_scope.md R10). -/
abbrev Byte := BitVec 8

/-- A block is exactly 16 bytes, held as the 128-bit register it corresponds to (10_state.md R22). -/
abbrev Block := BitVec 128

/-- A 64-bit length register or header field (10_state.md R20, 30_encoding.md R80). -/
abbrev Word64 := BitVec 64

end Sys2Proof
end

