-- ==== Sys2Proof/Config.lean ====
section
/-! DEFINITION. What is fixed for the machine: the constants of 00_scope.md R6 and R8, and the Base Engine's mathematics, left uninterpreted. -/

namespace Sys2Proof.Config

/-- BLOCK, in bytes (00_scope.md R6). -/
def blockSize : Nat := 16

/-- TAGSZ, in bytes (00_scope.md R6, 44_tagsize.md R166). -/
def tagSize : Nat := 16

/-- STDNONCE, in bytes (00_scope.md R6); the default of NSIZE (R7). -/
def stdNonceSize : Nat := 12

/-- LIMIT, the bound on the bytes taken by NEXT in one message (00_scope.md R8). -/
def limit : Nat := (2 ^ 32 - 2) * 16

/-- The block cipher under the engine's key, behind `Eng.enc` (40_engine_primitives.md R115).
The key is named by a number: the source gives it no size (91 N3). Uninterpreted (R9, log 1). -/
opaque blockEncrypt : Nat → Block → Block

/-- One GHASH fold of one block into the accumulator, behind `Eng.ghash` (R114). Uninterpreted (R9, log 1). -/
opaque ghashFold : Nat → Block → Block → Block

/-- Counter derivation from a nonce, `Eng.derive` (R111). Uninterpreted (R9, log 1). -/
opaque deriveCounter : Nat → List Byte → Block

end Sys2Proof.Config
end

