-- ==== Sys2Proof/Syntax.lean ====
section
/-! DEFINITION. The instructions: one constructor per row of spec/opcode_table.json. -/

namespace Sys2Proof

/-- A row of the opcode table with its operands. The seven commands arrive on HC (30_encoding.md R81, R83);
the five engine requests travel on EP (R91). -/
inductive Instr where
  /-- `TAGSIZE` (44_tagsize.md R165) -/
  | tagsize
  /-- `INIT_ENC` with NONCE and associated data (41_initialize.md R131) -/
  | initEnc (nonce ad : List Byte)
  /-- `INIT_DEC` (R132) -/
  | initDec (nonce ad : List Byte)
  /-- `INIT_VFY` (R133) -/
  | initVfy (nonce ad : List Byte)
  /-- `NEXT` with a fragment (42_next.md R140) -/
  | next (fragment : List Byte)
  /-- `FIN_ENC` (43_finalize.md R152) -/
  | finEnc
  /-- `FIN_DEC` with the supplied tag (R153) -/
  | finDec (tag : List Byte)
  /-- `Eng.derive(n)` (40_engine_primitives.md R111) -/
  | engDerive (nonce : List Byte)
  /-- `Eng.inc(c)` (R112) -/
  | engInc (counter : Block)
  /-- `Eng.ctr(c, d)` (R113) -/
  | engCtr (counter : Block) (data : List Byte)
  /-- `Eng.ghash(y, d)` (R114) -/
  | engGhash (acc : Block) (data : List Byte)
  /-- `Eng.enc(b)` (R115) -/
  | engEnc (block : Block)
  deriving DecidableEq, Repr

/-- The channel a descriptor travels on (20_memory.md R51): commands on HC, engine requests on EP. -/
inductive Channel where
  | hc
  | ep
  deriving DecidableEq, Repr

/-- Which channel carries the instruction. -/
def Instr.channel : Instr → Channel
  | .tagsize => .hc
  | .initEnc _ _ => .hc
  | .initDec _ _ => .hc
  | .initVfy _ _ => .hc
  | .next _ => .hc
  | .finEnc => .hc
  | .finDec _ => .hc
  | .engDerive _ => .ep
  | .engInc _ => .ep
  | .engCtr _ _ => .ep
  | .engGhash _ _ => .ep
  | .engEnc _ => .ep

end Sys2Proof
end

