-- ==== Sys2Proof/WellFormed.lean ====
section
/-! DEFINITION. Which operands an encoding can carry. -/

namespace Sys2Proof

/-- The operand lengths of 30_encoding.md R80, R84 (commands) and R91 (engine requests): NLEN is 16 bits,
DLEN 64 bits and below 2^61 on INIT_*; a nonce on EP has NSIZE (1 to 65535) bytes; the data of `Eng.ctr` and
`Eng.ghash` is a positive multiple of 16 bytes and its request fits PLEN. -/
def Instr.wf : Instr → Bool
  | .tagsize => true
  | .initEnc n a => decide (n.length < 2 ^ 16) && decide (a.length < 2 ^ 61)
  | .initDec n a => decide (n.length < 2 ^ 16) && decide (a.length < 2 ^ 61)
  | .initVfy n a => decide (n.length < 2 ^ 16) && decide (a.length < 2 ^ 61)
  | .next d => decide (d.length < 2 ^ 64)
  | .finEnc => true
  | .finDec t => decide (t.length < 2 ^ 64)
  | .engDerive n => decide (1 ≤ n.length) && decide (n.length < 2 ^ 16)
  | .engInc _ => true
  | .engCtr _ d => decide (16 ≤ d.length) && decide (d.length % 16 = 0) && decide (16 + d.length < 2 ^ 64)
  | .engGhash _ d => decide (16 ≤ d.length) && decide (d.length % 16 = 0) && decide (16 + d.length < 2 ^ 64)
  | .engEnc _ => true

end Sys2Proof
end

