-- ==== Sys2Proof/Decode.lean ====
section
/-! DEFINITION. Byte order, the descriptor formats CMD and ENGREQ, the opcode map, the decoder (total on any bytes, rejecting by name) and the encoder. -/

namespace Sys2Proof

/-! ### Byte order (00_scope.md R10, 20_memory.md R53): big-endian throughout -/

/-- The `w`-byte big-endian encoding of a natural below 256^w (be16, be64 of R10). -/
def beBytes : Nat → Nat → List Byte
  | 0, _ => []
  | w + 1, v => BitVec.ofNat 8 (v / 256 ^ w) :: beBytes w v

/-- The natural whose big-endian encoding is the sequence (unbe of R10). -/
def unbe (l : List Byte) : Nat := l.foldl (fun acc x => acc * 256 + x.toNat) 0

/-- The 16 bytes of a 128-bit register, byte 0 the most significant (10_state.md R22). -/
def blockBytes (b : Block) : List Byte := beBytes 16 b.toNat

/-- The 128-bit register of a 16-byte block (10_state.md R22). -/
def bytesBlock (l : List Byte) : Block := BitVec.ofNat 128 (unbe l)

/-! ### Header fields (30_encoding.md R80, R91) -/

/-- `OP`, bits [127:120] of a command header (R80); `EOP` of an engine request header (R91). -/
def hdrOp (h : Block) : Byte := h.extractLsb' 120 8

/-- `RSV1`, bits [119:112] (R80). -/
def hdrRsv1 (h : Block) : BitVec 8 := h.extractLsb' 112 8

/-- `NLEN`, bits [111:96] (R80). -/
def hdrNlen (h : Block) : BitVec 16 := h.extractLsb' 96 16

/-- `RSV2`, bits [95:64] (R80). -/
def hdrRsv2 (h : Block) : BitVec 32 := h.extractLsb' 64 32

/-- `DLEN`, bits [63:0] (R80); `PLEN` of an engine request header (R91). -/
def hdrDlen (h : Block) : Word64 := h.extractLsb' 0 64

/-- The seven zero bytes of an engine request header, bits [119:64] (R91). -/
def hdrZero (h : Block) : BitVec 56 := h.extractLsb' 64 56

/-- A command header with zero reserved fields (R80, R85). -/
def cmdHeader (op : Byte) (nlen : BitVec 16) (dlen : Word64) : Block :=
  op ++ (0 : BitVec 8) ++ nlen ++ (0 : BitVec 32) ++ dlen

/-- An engine request header (R91). -/
def engHeader (eop : Byte) (plen : Word64) : Block :=
  eop ++ (0 : BitVec 56) ++ plen

/-! ### The opcode map (30_encoding.md R83, R91) -/

/-- The rows of the opcode table, without operands. -/
inductive Opcode where
  | tagsize | initEnc | initDec | initVfy | next | finEnc | finDec
  | engDerive | engInc | engCtr | engGhash | engEnc
  deriving DecidableEq, Repr

/-- The row of an instruction. -/
def Instr.opcode : Instr → Opcode
  | .tagsize => .tagsize
  | .initEnc _ _ => .initEnc
  | .initDec _ _ => .initDec
  | .initVfy _ _ => .initVfy
  | .next _ => .next
  | .finEnc => .finEnc
  | .finDec _ => .finDec
  | .engDerive _ => .engDerive
  | .engInc _ => .engInc
  | .engCtr _ _ => .engCtr
  | .engGhash _ _ => .engGhash
  | .engEnc _ => .engEnc

/-- The value of header byte 0 for each row: `OP` of R83, `EOP` of R91. -/
def Opcode.code : Opcode → Byte
  | .tagsize => 0x01
  | .initEnc => 0x10
  | .initDec => 0x11
  | .initVfy => 0x12
  | .next => 0x20
  | .finEnc => 0x30
  | .finDec => 0x31
  | .engDerive => 0x01
  | .engInc => 0x02
  | .engCtr => 0x03
  | .engGhash => 0x04
  | .engEnc => 0x05

/-- The command an `OP` byte selects, none for a reserved opcode (R83, R85). -/
def commandOfOp (op : Byte) : Option Opcode :=
  if op = 0x01 then some .tagsize
  else if op = 0x10 then some .initEnc
  else if op = 0x11 then some .initDec
  else if op = 0x12 then some .initVfy
  else if op = 0x20 then some .next
  else if op = 0x30 then some .finEnc
  else if op = 0x31 then some .finDec
  else none

/-- The engine primitive an `EOP` byte selects (R91). -/
def requestOfOp (eop : Byte) : Option Opcode :=
  if eop = 0x01 then some .engDerive
  else if eop = 0x02 then some .engInc
  else if eop = 0x03 then some .engCtr
  else if eop = 0x04 then some .engGhash
  else if eop = 0x05 then some .engEnc
  else none

/-- Whether the command is one of `INIT_*`, the only ones with a nonce operand (R84). -/
def Opcode.isInit : Opcode → Bool
  | .initEnc => true
  | .initDec => true
  | .initVfy => true
  | _ => false

/-- Whether the command has no data operand: `FIN_ENC`, `TAGSIZE` (R84). -/
def Opcode.noData : Opcode → Bool
  | .tagsize => true
  | .finEnc => true
  | _ => false

/-- Why a header is no command (R86) or no engine request (R91). -/
inductive Illegal where
  /-- an `OP` (`EOP`) value that no row has (R85, R91) -/
  | reservedOpcode
  /-- a non-zero reserved field (R85) or a non-zero byte among the seven of R91 -/
  | reservedField
  /-- `NLEN` not zero outside `INIT_*` (R84) -/
  | nonceOperand
  /-- `DLEN` not zero on `FIN_ENC` or `TAGSIZE` (R84) -/
  | dataOperand
  /-- `DLEN` of 2^61 or more on `INIT_*` (R84) -/
  | dataTooLong
  /-- a `PLEN` the primitive's payload cannot have (R91, log 13) -/
  | requestLength
  deriving DecidableEq, Repr

/-- The command a header stands for, or why it stands for none (R83 to R86). -/
def commandOf (h : Block) : Except Illegal Opcode :=
  match commandOfOp (hdrOp h) with
  | none => .error .reservedOpcode
  | some op =>
    if hdrRsv1 h ≠ 0 ∨ hdrRsv2 h ≠ 0 then .error .reservedField
    else if op.isInit = false ∧ hdrNlen h ≠ 0 then .error .nonceOperand
    else if op.noData = true ∧ hdrDlen h ≠ 0 then .error .dataOperand
    else if op.isInit = true ∧ 2 ^ 61 ≤ (hdrDlen h).toNat then .error .dataTooLong
    else .ok op

/-- The payload lengths R91 gives a primitive's request: `NSIZE` (1 to 65535), 16, or 16 and a positive multiple of 16. -/
def requestLengthOk (op : Opcode) (plen : Nat) : Bool :=
  match op with
  | .engDerive => decide (1 ≤ plen) && decide (plen < 2 ^ 16)
  | .engInc => decide (plen = 16)
  | .engCtr => decide (32 ≤ plen) && decide (plen % 16 = 0)
  | .engGhash => decide (32 ≤ plen) && decide (plen % 16 = 0)
  | .engEnc => decide (plen = 16)
  | _ => false

/-- The primitive an engine request header stands for, or why it stands for none (R91). -/
def requestOf (h : Block) : Except Illegal Opcode :=
  match requestOfOp (hdrOp h) with
  | none => .error .reservedOpcode
  | some op =>
    if hdrZero h ≠ 0 then .error .reservedField
    else if requestLengthOk op (hdrDlen h).toNat = false then .error .requestLength
    else .ok op

/-- Operand assembly (R81, R91): the instruction of a row with the payload's bytes. On INIT_* the payload is
NONCE then DATA; an engine payload starts with the 16-byte operand where the primitive has one. -/
def operands (op : Opcode) (h : Block) (payload : List Byte) : Instr :=
  match op with
  | .tagsize => .tagsize
  | .initEnc => .initEnc (payload.take (hdrNlen h).toNat) (payload.drop (hdrNlen h).toNat)
  | .initDec => .initDec (payload.take (hdrNlen h).toNat) (payload.drop (hdrNlen h).toNat)
  | .initVfy => .initVfy (payload.take (hdrNlen h).toNat) (payload.drop (hdrNlen h).toNat)
  | .next => .next payload
  | .finEnc => .finEnc
  | .finDec => .finDec payload
  | .engDerive => .engDerive payload
  | .engInc => .engInc (bytesBlock payload)
  | .engCtr => .engCtr (bytesBlock (payload.take 16)) (payload.drop 16)
  | .engGhash => .engGhash (bytesBlock (payload.take 16)) (payload.drop 16)
  | .engEnc => .engEnc (bytesBlock payload)

/-! ### Framing and decoding -/

/-- The payload length a header announces: `NLEN + DLEN` for every `OP`, legal or not (R82); `PLEN` on EP (R91). -/
def payloadLength (ch : Channel) (h : Block) : Nat :=
  match ch with
  | .hc => (hdrNlen h).toNat + (hdrDlen h).toNat
  | .ep => (hdrDlen h).toNat

/-- The row a header selects on its channel. -/
def selectRow (ch : Channel) (h : Block) : Except Illegal Opcode :=
  match ch with
  | .hc => commandOf h
  | .ep => requestOf h

/-- What the bytes waiting on a channel hold. -/
inductive Decoded where
  /-- not yet a whole descriptor: the receiver waits (R82) -/
  | incomplete
  /-- a whole descriptor that matches no row, and the bytes after it (R86) -/
  | illegal (why : Illegal) (rest : List Byte)
  /-- a whole descriptor of a row, and the bytes after it -/
  | instr (i : Instr) (rest : List Byte)
  deriving DecidableEq, Repr

/-- The instruction of one framed descriptor. -/
def decodeFramed (ch : Channel) (h : Block) (payload : List Byte) : Except Illegal Instr :=
  match selectRow ch h with
  | .error why => .error why
  | .ok op => .ok (operands op h payload)

/-- The decoder: the first descriptor of a byte stream, total on any bytes (R82, R86, R91). -/
def decode (ch : Channel) (bs : List Byte) : Decoded :=
  if bs.length < 16 then .incomplete
  else
    let h := bytesBlock (bs.take 16)
    let n := payloadLength ch h
    if (bs.drop 16).length < n then .incomplete
    else
      match decodeFramed ch h ((bs.drop 16).take n) with
      | .error why => .illegal why ((bs.drop 16).drop n)
      | .ok i => .instr i ((bs.drop 16).drop n)

/-! ### Encoding -/

/-- The header of an instruction (R80, R83, R91). -/
def headerOf (i : Instr) : Block :=
  match i with
  | .tagsize => cmdHeader 0x01 0 0
  | .initEnc n a => cmdHeader 0x10 (BitVec.ofNat 16 n.length) (BitVec.ofNat 64 a.length)
  | .initDec n a => cmdHeader 0x11 (BitVec.ofNat 16 n.length) (BitVec.ofNat 64 a.length)
  | .initVfy n a => cmdHeader 0x12 (BitVec.ofNat 16 n.length) (BitVec.ofNat 64 a.length)
  | .next d => cmdHeader 0x20 0 (BitVec.ofNat 64 d.length)
  | .finEnc => cmdHeader 0x30 0 0
  | .finDec t => cmdHeader 0x31 0 (BitVec.ofNat 64 t.length)
  | .engDerive n => engHeader 0x01 (BitVec.ofNat 64 n.length)
  | .engInc _ => engHeader 0x02 16
  | .engCtr _ d => engHeader 0x03 (BitVec.ofNat 64 (16 + d.length))
  | .engGhash _ d => engHeader 0x04 (BitVec.ofNat 64 (16 + d.length))
  | .engEnc _ => engHeader 0x05 16

/-- The payload of an instruction (R81, R91). -/
def payloadOf (i : Instr) : List Byte :=
  match i with
  | .tagsize => []
  | .initEnc n a => n ++ a
  | .initDec n a => n ++ a
  | .initVfy n a => n ++ a
  | .next d => d
  | .finEnc => []
  | .finDec t => t
  | .engDerive n => n
  | .engInc c => blockBytes c
  | .engCtr c d => blockBytes c ++ d
  | .engGhash y d => blockBytes y ++ d
  | .engEnc b => blockBytes b

/-- The descriptor bytes of an instruction: its header, then its payload. -/
def encode (i : Instr) : List Byte := blockBytes (headerOf i) ++ payloadOf i

/-! ### The opcode table's words -/

/-- A row of the opcode map: a header selects it when `H and mask = match` (R83). -/
structure MapRow where
  opcode : Opcode
  matchBits : Block
  mask : Block
  deriving DecidableEq, Repr

/-- The opcode map of the seven commands, as R83 prints it. -/
def commandMap : List MapRow :=
  [⟨.tagsize, 0x01000000000000000000000000000000, 0xFFFFFFFFFFFFFFFFFFFFFFFFFFFFFFFF⟩,
   ⟨.initEnc, 0x10000000000000000000000000000000, 0xFFFF0000FFFFFFFFE000000000000000⟩,
   ⟨.initDec, 0x11000000000000000000000000000000, 0xFFFF0000FFFFFFFFE000000000000000⟩,
   ⟨.initVfy, 0x12000000000000000000000000000000, 0xFFFF0000FFFFFFFFE000000000000000⟩,
   ⟨.next, 0x20000000000000000000000000000000, 0xFFFFFFFFFFFFFFFF0000000000000000⟩,
   ⟨.finEnc, 0x30000000000000000000000000000000, 0xFFFFFFFFFFFFFFFFFFFFFFFFFFFFFFFF⟩,
   ⟨.finDec, 0x31000000000000000000000000000000, 0xFFFFFFFFFFFFFFFF0000000000000000⟩]

/-- Whether a header selects a row of the map. -/
def MapRow.selects (r : MapRow) (h : Block) : Bool := h &&& r.mask == r.matchBits

/-- The descriptor that a 128-bit header word starts when every payload byte is zero. -/
def zeroPayloadBytes (ch : Channel) (h : Block) : List Byte :=
  blockBytes h ++ List.replicate (payloadLength ch h) 0

/-- The channel an opcode-table word belongs to: HC where it is a command, else EP where it is an engine
request, else HC (log 14). -/
def channelOfWord (h : Block) : Channel :=
  match commandOf h with
  | .ok _ => .hc
  | .error _ =>
    match requestOf h with
    | .ok _ => .ep
    | .error _ => .hc

/-- The instruction of an opcode-table word: the table numbers a row's bits as the 128-bit header `H` with byte 0
in [127:120], the same 128 bits for every row; the payload is zero bytes. It is what `decode` reads from
`zeroPayloadBytes` (Laws/Decode.lean, `decode_zeroPayloadBytes`). -/
def decodeTableWord (_nbits w : Nat) : Option Instr :=
  let h := BitVec.ofNat 128 w
  let ch := channelOfWord h
  match decodeFramed ch h (List.replicate (payloadLength ch h) 0) with
  | .ok i => some i
  | .error _ => none

end Sys2Proof
end

