-- ==== Sys2Proof/Machine/Aes.lean ====
section
/-! DEFINITION. The mathematics of instantiation `AES`: AES-128 (FIPS 197) and multiplication in GF(2^128) with the GCM bit order (40_engine_primitives.md R122, general knowledge; log 9). A cipher state is its 16 bytes in order. -/

namespace Sys2Proof.Machine

/-- The AES S-box, entry 0 in the most significant byte. -/
def aesSboxTable : Nat :=
  0x637c777bf26b6fc53001672bfed7ab76ca82c97dfa5947f0add4a2af9ca472c0b7fd9326363ff7cc34a5e5f171d8311504c723c31896059a071280e2eb27b27509832c1a1b6e5aa0523bd6b329e32f8453d100ed20fcb15b6acbbe394a4c58cfd0efaafb434d338545f9027f503c9fa851a3408f929d38f5bcb6da2110fff3d2cd0c13ec5f974417c4a77e3d645d197360814fdc222a908846eeb814de5e0bdbe0323a0a4906245cc2d3ac629195e479e7c8376d8dd54ea96c56f4ea657aae08ba78252e1ca6b4c6e8dd741f4bbd8b8a703eb5664803f60e613557b986c11d9ee1f8981169d98e949b1e87e9ce5528df8ca1890dbfe6426841992d0fb054bb16

/-- SubBytes of one byte. -/
def aesSbox (x : Byte) : Byte := BitVec.ofNat 8 (aesSboxTable >>> (8 * (255 - x.toNat)))

/-- Multiplication by x in GF(2^8) modulo x^8 + x^4 + x^3 + x + 1. -/
def aesXtime (a : Byte) : Byte := if a.getLsbD 7 then (a <<< 1) ^^^ 0x1B else a <<< 1

/-- Byte-wise exclusive or of two sequences; it stops at the shorter (00_scope.md R10 uses equal lengths). -/
def xorBytes (a b : List Byte) : List Byte := List.zipWith (· ^^^ ·) a b

/-- ShiftRows: byte i comes from byte (i + 4 (i mod 4)) mod 16. -/
def aesShiftRows (st : List Byte) : List Byte :=
  (List.range 16).map fun i => st.getD ((i + 4 * (i % 4)) % 16) 0

/-- MixColumns of one column. -/
def aesMixColumn (a b c d : Byte) : List Byte :=
  [aesXtime a ^^^ (aesXtime b ^^^ b) ^^^ c ^^^ d,
   a ^^^ aesXtime b ^^^ (aesXtime c ^^^ c) ^^^ d,
   a ^^^ b ^^^ aesXtime c ^^^ (aesXtime d ^^^ d),
   (aesXtime a ^^^ a) ^^^ b ^^^ c ^^^ aesXtime d]

/-- MixColumns, column by column. -/
def aesMixColumns : List Byte → List Byte
  | a :: b :: c :: d :: rest => aesMixColumn a b c d ++ aesMixColumns rest
  | _ => []

/-- One step of the key schedule: the next round key from the last, with the round constant. -/
def aesNextKey (rc : Byte) (k : List Byte) : List Byte :=
  let w (i : Nat) : List Byte := (k.drop (4 * i)).take 4
  let g : List Byte :=
    [aesSbox (k.getD 13 0) ^^^ rc, aesSbox (k.getD 14 0), aesSbox (k.getD 15 0), aesSbox (k.getD 12 0)]
  let w0 := xorBytes (w 0) g
  let w1 := xorBytes (w 1) w0
  let w2 := xorBytes (w 2) w1
  w0 ++ w1 ++ w2 ++ xorBytes (w 3) w2

/-- The rounds from a state to which the last round key has been added; `n + 1` of them are left. -/
def aesRounds : Nat → Byte → List Byte → List Byte → List Byte
  | 0, rc, k, st => xorBytes (aesShiftRows (st.map aesSbox)) (aesNextKey rc k)
  | n + 1, rc, k, st =>
    let k' := aesNextKey rc k
    aesRounds n (aesXtime rc) k' (xorBytes (aesMixColumns (aesShiftRows (st.map aesSbox))) k')

/-- AES-128 encryption of one block: ten rounds. -/
def aesEncrypt (key b : Block) : Block :=
  bytesBlock (aesRounds 9 1 (blockBytes key) (xorBytes (blockBytes b) (blockBytes key)))

/-- The loop of the GF(2^128) product: `x` is scanned from its most significant bit, `v` is divided by the polynomial's
generator at each bit (bit 7 of byte 0 is the coefficient of x^0). -/
def gcmMulLoop : Nat → Block → Block → Block → Block
  | 0, _, _, z => z
  | n + 1, x, v, z =>
    gcmMulLoop n (x <<< 1)
      (if v.getLsbD 0 then (v >>> 1) ^^^ 0xE1000000000000000000000000000000 else v >>> 1)
      (if x.getLsbD 127 then z ^^^ v else z)

/-- Multiplication in GF(2^128) modulo x^128 + x^7 + x^2 + x + 1, GCM bit order. -/
def gcmMul (x y : Block) : Block := gcmMulLoop 128 x y 0

end Sys2Proof.Machine
end

