-- ==== Sys2Proof/Machine/State.lean ====
section
/-! DEFINITION. The state of the machine, its stops, and the state after reset. -/

namespace Sys2Proof.Machine

/-- MODE, the Mode Flag (10_state.md R29). The code 3 is never written and is no constructor (93 U14). -/
inductive Mode where
  | enc
  | dec
  | vfy
  deriving DecidableEq, Repr

/-- PHASE, the lifecycle register (10_state.md R31). -/
inductive Phase where
  | uninit
  | active
  | final
  | faulted
  deriving DecidableEq, Repr

/-- CAUSE, the first fatal cause since reset (60_exceptions.md R171). Codes 7 to 255 are never written (93 U14). -/
inductive Cause where
  /-- 0: no fatal fault since reset -/
  | noFault
  /-- 1: `BAD_NONCE_LEN` (R172) -/
  | badNonceLen
  /-- 2: `NOT_INITIALIZED` (R173) -/
  | notInitialized
  /-- 3: `LENGTH_LIMIT` (R174) -/
  | lengthLimit
  /-- 4: `BAD_TAG_LEN` (43_finalize.md R157 (c)) -/
  | badTagLen
  /-- 5: `ILLEGAL_COMMAND` (R175) -/
  | illegalCommand
  /-- 6: `MODE_MISMATCH` (43_finalize.md R157 (b)) -/
  | modeMismatch
  deriving DecidableEq, Repr

/-- STATUS of a response (30_encoding.md R89). -/
inductive Status where
  | ok
  | authFail
  | fatal
  deriving DecidableEq, Repr

/-- The Base Engine behind EP: which functions answer the five requests. It stands for the key material the block
depends on but does not hold (10_state.md R39, 00_scope.md R9). -/
inductive Engine where
  /-- the engine with uninterpreted mathematics, under the key of that number (Config, log 1) -/
  | base (key : Nat)
  /-- instantiation `AES` (40_engine_primitives.md R122) under a 128-bit key -/
  | aes (key : Block)
  /-- instantiation `TOY` (R123) -/
  | toy
  deriving DecidableEq, Repr

/-- One request on EP and its answer, as bytes (30_encoding.md R91). -/
structure Exchange where
  request : List Byte
  answer : List Byte
  deriving DecidableEq, Repr

/-- One assertion of the reset input by the host (70_reset_and_hazards.md R200, log 5). -/
structure ResetInput where
  /-- how many steps the block makes before the host asserts it -/
  after : Nat
  /-- the bytes the host sends on HC after it -/
  sent : List Byte
  deriving DecidableEq, Repr

/-- Everything the spec gives the machine (10_state.md R20, R39; 20_memory.md R51; 70_reset_and_hazards.md R200). -/
@[ext]
structure State where
  /-- Y, the running GHASH value (R23) -/
  y : Block
  /-- ADBITS, the associated-data length in bits (R24) -/
  adbits : Word64
  /-- CTLEN, the bytes taken by NEXT in this message (R25) -/
  ctlen : Word64
  /-- CTR, the counter block for the next keystream block (R26) -/
  ctr : Block
  /-- TM, the Tag Mask (R27) -/
  tm : Block
  /-- PB, the Pending Buffer's 15 byte cells (R28) -/
  pb : Vector Byte 15
  /-- PBLEN, the number of valid bytes in PB (R28) -/
  pblen : BitVec 4
  /-- MODE (R29) -/
  mode : Mode
  /-- PHASE (R31) -/
  phase : Phase
  /-- CAUSE (R32) -/
  cause : Cause
  /-- NSIZE, hardwired (R33) -/
  nsize : BitVec 16
  /-- the Base Engine, outside the block; no step changes it (R39) -/
  engine : Engine
  /-- HC: the bytes the host has sent and the block has not taken, oldest first (20_memory.md R51) -/
  hc : List Byte
  /-- the resets the host is going to assert, oldest first; the first counts its steps from now, each later one from
  the reset before it (R200, R204, log 5) -/
  resets : List ResetInput
  /-- HR: the bytes sent to the host so far, oldest first (30_encoding.md R88) -/
  hr : List Byte
  /-- EP: the bytes of a request that stands unanswered (R91, R201, log 11) -/
  epPending : List Byte
  /-- EP: the requests answered so far, oldest first (R91) -/
  epLog : List Exchange
  deriving DecidableEq, Repr

/-- Why the machine stops. No meaning of an instruction ends here: the six fatal causes are next states (R176). -/
inductive Fault where
  /-- raised by `step` when the bytes standing on EP are no request of 30_encoding.md R91. The spec gives the engine
  no way to refuse a request (R120) and the block never sends one. Safe: the machine stops (log 11). -/
  | malformedEngineRequest
  deriving DecidableEq, Repr

/-- Why the model gives no meaning. -/
inductive Refusal where
  /-- raised by an arm of `exec` for an instruction that has no meaning yet; no arm raises it now. Safe. -/
  | notModelled (mnemonic : String)
  /-- raised by `step` on a block built with NSIZE = 0, "not a legal configuration and a block built with it is
  outside this spec" (10_state.md R33; 93 U8 treats it as `refuse`). Safe (log 3). -/
  | zeroNonceSize
  deriving DecidableEq, Repr

/-- The machine right after reset (R35, R200): every register zero, MODE ENC, PHASE UNINIT, CAUSE 0, nothing pending
on any channel. NSIZE is the default of R7 (log 3); the engine is the uninterpreted one (log 2). -/
def State.reset : State where
  y := 0
  adbits := 0
  ctlen := 0
  ctr := 0
  tm := 0
  pb := Vector.replicate 15 0
  pblen := 0
  mode := .enc
  phase := .uninit
  cause := .noFault
  nsize := 12
  engine := .base 0
  hc := []
  resets := []
  hr := []
  epPending := []
  epLog := []

end Sys2Proof.Machine
end

