-- ==== Sys2Proof/Machine/Operands.lean ====
section
/-! DEFINITION. Operand forms: the Pending Buffer, the split of buffered bytes into whole blocks and a rest, padding, the length block and the response bytes. -/

namespace Sys2Proof.Machine

/-- `pad16(b)`: zero bytes on the right up to the next multiple of 16 (40_engine_primitives.md R118; log 8). -/
def pad16 (d : List Byte) : List Byte := d ++ List.replicate ((16 - d.length % 16) % 16) 0

/-- The number of bytes in complete blocks, `16 * (len div 16)` (42_next.md R142). -/
def wholeBytes (d : List Byte) : Nat := 16 * (d.length / 16)

/-- `head`: the longest prefix of whole blocks (R142). -/
def wholePart (d : List Byte) : List Byte := d.take (wholeBytes d)

/-- `rest`: the bytes after the last whole block (R143). -/
def restPart (d : List Byte) : List Byte := d.drop (wholeBytes d)

/-- The Pending Buffer's cells for a content of at most 15 bytes: the content, then zero bytes (10_state.md R28). -/
def pendingCells (d : List Byte) : Vector Byte 15 :=
  ⟨⟨(d ++ List.replicate 15 0).take 15⟩, by simp⟩

/-- The valid content `PB[0:PBLEN]`, oldest byte first (R28). -/
def State.pending (s : State) : List Byte := s.pb.toList.take s.pblen.toNat

/-- `PB <- d ; PBLEN <- len(d)` (R28, R143). -/
def State.setPending (d : List Byte) (s : State) : State :=
  { s with pb := pendingCells d, pblen := BitVec.ofNat 4 d.length }

/-- The length block `be64(ADBITS) || be64(8 * CTLEN)` (43_finalize.md R150). `8 * CTLEN` is taken modulo 2^64, which
changes nothing while CTLEN is at most LIMIT (10_state.md R25; log 10). -/
def lengthBlock (adbits ctlen : Word64) : List Byte := beBytes 8 adbits.toNat ++ beBytes 8 (8 * ctlen.toNat)

/-- The STATUS byte (30_encoding.md R89). -/
def Status.code : Status → Byte
  | .ok => 0x01
  | .authFail => 0x02
  | .fatal => 0x03

/-- The cause number (60_exceptions.md R171). -/
def Cause.code : Cause → Byte
  | .noFault => 0
  | .badNonceLen => 1
  | .notInitialized => 2
  | .lengthLimit => 3
  | .badTagLen => 4
  | .illegalCommand => 5
  | .modeMismatch => 6

/-- The two bits of MODE (10_state.md R29). -/
def Mode.code : Mode → BitVec 2
  | .enc => 0
  | .dec => 1
  | .vfy => 2

/-- The two bits of PHASE (10_state.md R31). -/
def Phase.code : Phase → BitVec 2
  | .uninit => 0
  | .active => 1
  | .final => 2
  | .faulted => 3

/-- A response descriptor: STATUS, CAUSE, six zero bytes, be64 of the payload length, the payload (30_encoding.md R88). -/
def responseBytes (st : Status) (c : Cause) (out : List Byte) : List Byte :=
  [st.code, c.code, 0, 0, 0, 0, 0, 0] ++ beBytes 8 out.length ++ out

end Sys2Proof.Machine
end

