-- ==== Sys2Proof/Machine/Engine.lean ====
section
/-! DEFINITION. The Base Engine: the five primitives as functions of the request (40_engine_primitives.md R110 to R115), with the instantiations AES (R122) and TOY (R123). -/

namespace Sys2Proof.Machine

/-- The 32-bit low-order increment of R112: bits [31:0] plus 1 modulo 2^32, the other 96 bits unchanged (log 7). -/
def incLow32 (c : Block) : Block :=
  (c.extractLsb' 32 96 ++ (c.extractLsb' 0 32 + 1) : BitVec (96 + 32))

/-- TOY block encryption (R123): byte i is byte (i+1) mod 16 exclusive-or 0xA5. -/
def toyEnc (b : Block) : Block := b.rotateLeft 8 ^^^ 0xA5A5A5A5A5A5A5A5A5A5A5A5A5A5A5A5

/-- TOY fold of one block (R123): exclusive or, then rotate left one byte. -/
def toyFold (y x : Block) : Block := (y ^^^ x).rotateLeft 8

/-- TOY derivation loop (R123): nonce byte i is folded onto position i mod 12. -/
def toyDeriveLoop : Nat → List Byte → Block → Block
  | _, [], j => j
  | i, x :: rest, j => toyDeriveLoop (i + 1) rest (j ^^^ (x.setWidth 128 <<< (120 - 8 * (i % 12))))

/-- TOY derivation (R123): the folded nonce, then its length in the low 32 bits. -/
def toyDerive (n : List Byte) : Block :=
  ((toyDeriveLoop 0 n 0).extractLsb' 32 96 ++ BitVec.ofNat 32 n.length : BitVec (96 + 32))

/-- The blocks of a byte sequence, first block first; bytes beyond the last whole block are left out. -/
def toBlocks : Nat → List Byte → List Block
  | 0, _ => []
  | n + 1, d => bytesBlock (d.take 16) :: toBlocks n (d.drop 16)

/-- The whole blocks of `d`. -/
def blocksOf (d : List Byte) : List Block := toBlocks (d.length / 16) d

/-- `Eng.enc(b)`: the block cipher under the engine's key (R115). -/
def engEnc : Engine → Block → Block
  | .base k, b => Config.blockEncrypt k b
  | .aes k, b => aesEncrypt k b
  | .toy, b => toyEnc b

/-- `Eng.inc(c)` (R112), the same in every engine. -/
def engInc (_ : Engine) (c : Block) : Block := incLow32 c

/-- One GHASH fold of one block (R114): with AES, multiplication by `H = Eng.enc(00*16)` (R122). -/
def engFold : Engine → Block → Block → Block
  | .base k, y, x => Config.ghashFold k y x
  | .aes k, y, x => gcmMul (y ^^^ x) (aesEncrypt k 0)
  | .toy, y, x => toyFold y x

/-- `Eng.ghash(y, d)`: the blocks of `d` folded into `y`, first block first (R114). -/
def engGhash (e : Engine) (y : Block) (d : List Byte) : Block := (blocksOf d).foldl (engFold e) y

/-- The loop of R113 on blocks. -/
def ctrLoop (e : Engine) : Block → List Block → List Byte × Block
  | c, [] => ([], c)
  | c, b :: rest =>
    let r := ctrLoop e (engInc e c) rest
    (blockBytes (b ^^^ engEnc e c) ++ r.1, r.2)

/-- `Eng.ctr(c, d)`: the transformed data and the advanced counter (R113). -/
def engCtr (e : Engine) (c : Block) (d : List Byte) : List Byte × Block := ctrLoop e c (blocksOf d)

/-- Derivation with AES (R122): the nonce and 00000001 for 12 bytes, else GHASH of the padded nonce and its length. -/
def aesDerive (e : Engine) (n : List Byte) : Block :=
  if n.length = 12 then bytesBlock (n ++ beBytes 4 1)
  else engGhash e 0 (pad16 n ++ List.replicate 8 0 ++ beBytes 8 (8 * n.length))

/-- `Eng.derive(n)`: the initial counter block `J0` (R111). -/
def engDerive : Engine → List Byte → Block
  | .base k, n => Config.deriveCounter k n
  | .aes k, n => aesDerive (.aes k) n
  | .toy, n => toyDerive n

end Sys2Proof.Machine
end

