-- ==== Sys2Proof/Machine/Ops.lean ====
section
/-! DEFINITION. The shared operations: responses, fault entry and its only return (reset), zeroisation, engine requests, GhashPad, FinalTag, TailCrypt. -/

namespace Sys2Proof.Machine

/-- The outcome of a meaning. -/
abbrev Result := Host.Outcome State Fault Refusal

/-! ### Responses -/

/-- `respond(STATUS, CAUSE, out)`: one response descriptor on HR (00_scope.md R10, 30_encoding.md R88). -/
def State.respond (st : Status) (c : Cause) (out : List Byte) (s : State) : State :=
  { s with hr := s.hr ++ responseBytes st c out }

/-! ### Fault entry, the faulted phase, and the return -/

/-- `raise Fatal(c)` (60_exceptions.md R176): CAUSE and PHASE are written, FATAL is answered, nothing else changes. -/
def raiseFatal (c : Cause) (s : State) : Result :=
  .next (({ s with cause := c, phase := .faulted } : State).respond .fatal c [])

/-- The answer to any descriptor while FAULTED: FATAL with the latched cause, no register changes (R177). -/
def answerFaulted (s : State) : Result := .next (s.respond .fatal s.cause [])

/-- The first check of every command (R178 step 1): while FAULTED only `answerFaulted`. -/
def unlessFaulted (s : State) (k : Result) : Result :=
  if s.phase = .faulted then answerFaulted s else k

/-- Executing a descriptor that matches no command: cause 5, unless FAULTED (30_encoding.md R86, R175). -/
def illegalCommand (s : State) : Result := unlessFaulted s (raiseFatal .illegalCommand s)

/-- The host asserts reset now (70_reset_and_hazards.md R204: between commands, at any time; log 5). -/
def State.resetDue (s : State) : Bool :=
  match s.resets with
  | [] => false
  | r :: _ => r.after == 0

/-- One step nearer to the next reset. -/
def countDown : List ResetInput → List ResetInput
  | [] => []
  | r :: later => { r with after := r.after - 1 } :: later

/-- The host's reset input after a step that is no reset (log 5). -/
def State.tick (s : State) : State := { s with resets := countDown s.resets }

/-- Reset, the only return from a fault (R181, 70_reset_and_hazards.md R200, R201): every register at its reset value,
everything on HC (whole descriptors and partly received ones) and the outstanding engine requests forgotten, no
response. NSIZE is hardwired and the engine untouched (R202); what HR and EP have already carried stays carried
(log 6). `hcAfter` and `later` are what the host does after this reset. -/
def State.applyReset (hcAfter : List Byte) (later : List ResetInput) (s : State) : State :=
  { State.reset with
    nsize := s.nsize, engine := s.engine, hc := hcAfter, resets := later, hr := s.hr, epLog := s.epLog }

/-! ### Zeroisation -/

/-- `Zeroise()`: every data register at its reset value and PHASE FINAL; CAUSE is unchanged (10_state.md R36). -/
def State.zeroise (s : State) : State :=
  { s with
    y := 0, adbits := 0, ctlen := 0, ctr := 0, tm := 0, pb := Vector.replicate 15 0, pblen := 0,
    mode := .enc, phase := .final }

/-! ### Engine requests: the answer, and the exchange recorded on EP (30_encoding.md R91) -/

/-- One request and its answer on EP. -/
def State.exchange (request : Instr) (answer : List Byte) (s : State) : State :=
  { s with epLog := s.epLog ++ [⟨encode request, answer⟩] }

/-- `Eng.derive(n)` (40_engine_primitives.md R111). -/
def askDerive (n : List Byte) (s : State) : Block × State :=
  let a := engDerive s.engine n
  (a, s.exchange (.engDerive n) (blockBytes a))

/-- `Eng.inc(c)` (R112). -/
def askInc (c : Block) (s : State) : Block × State :=
  let a := engInc s.engine c
  (a, s.exchange (.engInc c) (blockBytes a))

/-- `Eng.ctr(c, d)` (R113): the answer payload is the data, then the advanced counter (R91). -/
def askCtr (c : Block) (d : List Byte) (s : State) : (List Byte × Block) × State :=
  let a := engCtr s.engine c d
  (a, s.exchange (.engCtr c d) (a.1 ++ blockBytes a.2))

/-- `Eng.ghash(y, d)` (R114). -/
def askGhash (y : Block) (d : List Byte) (s : State) : Block × State :=
  let a := engGhash s.engine y d
  (a, s.exchange (.engGhash y d) (blockBytes a))

/-- `Eng.enc(b)` (R115). -/
def askEnc (b : Block) (s : State) : Block × State :=
  let a := engEnc s.engine b
  (a, s.exchange (.engEnc b) (blockBytes a))

/-! ### Procedures built from the requests -/

/-- `Y <- Eng.ghash(Y, d)`. -/
def foldInto (d : List Byte) (s : State) : State :=
  let r := askGhash s.y d s
  { r.2 with y := r.1 }

/-- `GhashPad(d)`: no request for empty data (R119). -/
def ghashPad (d : List Byte) (s : State) : State :=
  if d.length = 0 then s else foldInto (pad16 d) s

/-- `FinalTag()` (43_finalize.md R150): the tag, and the state after the last fold. -/
def finalTag (s : State) : Block × State :=
  let s' := foldInto (lengthBlock s.adbits s.ctlen) s
  (s'.y ^^^ s'.tm, s')

/-- `TailCrypt()` (R151; log 8): the pending bytes with the first PBLEN bytes of the keystream block. CTR is not written. -/
def tailCrypt (s : State) : List Byte × State :=
  let r := askEnc s.ctr s
  (xorBytes s.pending (blockBytes r.1), r.2)

end Sys2Proof.Machine
end

