-- ==== Sys2Proof/Machine/EnginePort.lean ====
section
/-! DEFINITION. The five engine requests as rows of the opcode table: the engine answers one request on EP. No register of the block is read or written ("State: none", 40_engine_primitives.md R111 to R115), whatever PHASE is (R110: no other input; log 11). -/

namespace Sys2Proof.Machine

/-- `Eng.derive(n)` (R111). -/
def execEngDerive (n : List Byte) (s : State) : Result := .next (askDerive n s).2

/-- `Eng.inc(c)` (R112). -/
def execEngInc (c : Block) (s : State) : Result := .next (askInc c s).2

/-- `Eng.ctr(c, d)` (R113). -/
def execEngCtr (c : Block) (d : List Byte) (s : State) : Result := .next (askCtr c d s).2

/-- `Eng.ghash(y, d)` (R114). -/
def execEngGhash (y : Block) (d : List Byte) (s : State) : Result := .next (askGhash y d s).2

/-- `Eng.enc(b)` (R115). -/
def execEngEnc (b : Block) (s : State) : Result := .next (askEnc b s).2

end Sys2Proof.Machine
end

