-- ==== Sys2Proof/Machine/Flags.lean ====
section
/-! DEFINITION. The flags and the checks a command makes on them: MODE, PHASE, the nonce length, the length limit, and the tag comparison. The block has no condition codes (10_state.md R29). -/

namespace Sys2Proof.Machine

/-- The operand check of INIT_*: `NLEN = NSIZE` (41_initialize.md R134). -/
def nonceLengthOk (s : State) (nonce : List Byte) : Bool := nonce.length == s.nsize.toNat

/-- The limit test of NEXT, `CTLEN + DLEN > LIMIT` in exact arithmetic (42_next.md R141). -/
def overLimit (s : State) (fragment : List Byte) : Bool :=
  decide (Config.limit < s.ctlen.toNat + fragment.length)

/-- The OR of the exclusive-ors of the byte pairs, the `d` of R154. -/
def differenceBits (a b : List Byte) : Byte :=
  (List.zipWith (· ^^^ ·) a b).foldl (· ||| ·) 0

/-- `CtEqual(a, b)` of two 16-byte values: every byte pair is looked at, then `d = 0` (43_finalize.md R154). -/
def ctEqual (a b : List Byte) : Bool := differenceBits a b == 0

end Sys2Proof.Machine
end

