-- ==== Sys2Proof/Machine/Finalize.lean ====
section
/-! DEFINITION. The finalise family: FIN_ENC and FIN_DEC. -/

namespace Sys2Proof.Machine

/-- The ciphertext tail of `FIN_ENC`, folded after it is made (43_finalize.md R152). -/
def sealTail (s : State) : List Byte × State :=
  if s.pblen = 0 then ([], s)
  else
    let r := tailCrypt s
    (r.1, ghashPad r.1 r.2)

/-- The effect of an accepted `FIN_ENC` (R152): tail, tag, zeroisation, response. -/
def closeSeal (s : State) : State :=
  let t := sealTail s
  let g := finalTag t.2
  g.2.zeroise.respond .ok .noFault (t.1 ++ blockBytes g.1)

/-- `FIN_ENC` (R152), checks in the order of R157 and 60_exceptions.md R178. -/
def execFinEnc (s : State) : Result :=
  unlessFaulted s
    (if s.phase ≠ .active then raiseFatal .notInitialized s
     else if s.mode ≠ .enc then raiseFatal .modeMismatch s
     else .next (closeSeal s))

/-- The plaintext tail of `FIN_DEC`: only in mode DEC and only when bytes are pending (R153). -/
def openTail (s : State) : List Byte × State :=
  if s.pblen ≠ 0 ∧ s.mode = .dec then tailCrypt s else ([], s)

/-- The effect of an accepted `FIN_DEC` (R153): the ciphertext tail is folded first; both outcomes zeroise; on a
mismatch the tail is withheld (R155). -/
def closeOpen (tag : List Byte) (s : State) : State :=
  let t := openTail (ghashPad s.pending s)
  let g := finalTag t.2
  if ctEqual (blockBytes g.1) tag then g.2.zeroise.respond .ok .noFault t.1
  else g.2.zeroise.respond .authFail .noFault []

/-- `FIN_DEC` (R153), checks in the order of R157 and 60_exceptions.md R178: phase, mode, tag length. -/
def execFinDec (tag : List Byte) (s : State) : Result :=
  unlessFaulted s
    (if s.phase ≠ .active then raiseFatal .notInitialized s
     else if s.mode = .enc then raiseFatal .modeMismatch s
     else if tag.length ≠ Config.tagSize then raiseFatal .badTagLen s
     else .next (closeOpen tag s))

end Sys2Proof.Machine
end

