-- ==== Sys2Proof/Machine/Initialize.lean ====
section
/-! DEFINITION. The initialise family: INIT_ENC, INIT_DEC, INIT_VFY. -/

namespace Sys2Proof.Machine

/-- `Init(m)` after the nonce length check (41_initialize.md R130): engine requests in the order of the pseudocode. -/
def openMessage (m : Mode) (nonce ad : List Byte) (s : State) : State :=
  let r0 := askDerive nonce s
  let r1 := askEnc r0.1 r0.2
  let r2 := askInc r0.1 r1.2
  let s1 : State :=
    { r2.2 with
      tm := r1.1, ctr := r2.1, y := 0, adbits := BitVec.ofNat 64 (8 * ad.length), ctlen := 0 }
  let s2 := (ghashPad ad s1).setPending []
  ({ s2 with mode := m, phase := .active } : State).respond .ok .noFault []

/-- `Init(m)` (R130) behind the checks of 60_exceptions.md R178: FAULTED, then the nonce length (R134). -/
def initWith (m : Mode) (nonce ad : List Byte) (s : State) : Result :=
  unlessFaulted s
    (if nonceLengthOk s nonce then .next (openMessage m nonce ad s) else raiseFatal .badNonceLen s)

/-- `INIT_ENC` (R131). -/
def execInitEnc (nonce ad : List Byte) (s : State) : Result := initWith .enc nonce ad s

/-- `INIT_DEC` (R132). -/
def execInitDec (nonce ad : List Byte) (s : State) : Result := initWith .dec nonce ad s

/-- `INIT_VFY` (R133). -/
def execInitVfy (nonce ad : List Byte) (s : State) : Result := initWith .vfy nonce ad s

end Sys2Proof.Machine
end

