-- ==== Sys2Proof/Machine/Next.lean ====
section
/-! DEFINITION. The data family: NEXT, with its three paths. -/

namespace Sys2Proof.Machine

/-- The processing of the whole blocks `head` (42_next.md R144 to R146): the output and the state. In ENC the
ciphertext is made and then folded; in DEC it is folded and then decrypted; in VFY it is only folded. -/
def processHead (head : List Byte) (s : State) : List Byte × State :=
  if head.length = 0 then ([], s)
  else
    match s.mode with
    | .enc =>
      let r := askCtr s.ctr head s
      (r.1.1, foldInto r.1.1 { r.2 with ctr := r.1.2 })
    | .dec =>
      let r := askCtr s.ctr head (foldInto head s)
      (r.1.1, { r.2 with ctr := r.1.2 })
    | .vfy => ([], foldInto head s)

/-- The effect of an accepted `NEXT` (R140, R142, R143). -/
def takeFragment (d : List Byte) (s : State) : State :=
  let buf := s.pending ++ d
  let r := processHead (wholePart buf) { s with ctlen := s.ctlen + BitVec.ofNat 64 d.length }
  (r.2.setPending (restPart buf)).respond .ok .noFault r.1

/-- `NEXT` (R140), checks in the order of 60_exceptions.md R178: FAULTED, phase, limit (R141). -/
def execNext (d : List Byte) (s : State) : Result :=
  unlessFaulted s
    (if s.phase ≠ .active then raiseFatal .notInitialized s
     else if overLimit s d then raiseFatal .lengthLimit s
     else .next (takeFragment d s))

end Sys2Proof.Machine
end

