-- ==== Sys2Proof/Machine/Query.lean ====
section
/-! DEFINITION. The query family: TAGSIZE. -/

namespace Sys2Proof.Machine

/-- `TAGSIZE` (44_tagsize.md R165): one payload byte, TAGSZ (R166); no register is read or written. -/
def execTagsize (s : State) : Result :=
  unlessFaulted s (.next (s.respond .ok .noFault [BitVec.ofNat 8 Config.tagSize]))

end Sys2Proof.Machine
end

