-- ==== Sys2Proof/Machine/Dispatch.lean ====
section
/-! DEFINITION. The dispatch: one arm per row of the opcode table. -/

namespace Sys2Proof.Machine

def exec (i : Instr) (s : State) : Host.Outcome State Fault Refusal :=
  match i with
  -- the commands, on HC
  | .tagsize => Sys2Proof.Machine.execTagsize s
  | .initEnc n a => Sys2Proof.Machine.execInitEnc n a s
  | .initDec n a => Sys2Proof.Machine.execInitDec n a s
  | .initVfy n a => Sys2Proof.Machine.execInitVfy n a s
  | .next d => Sys2Proof.Machine.execNext d s
  | .finEnc => Sys2Proof.Machine.execFinEnc s
  | .finDec t => Sys2Proof.Machine.execFinDec t s
  -- the engine requests, on EP
  | .engDerive n => Sys2Proof.Machine.execEngDerive n s
  | .engInc c => Sys2Proof.Machine.execEngInc c s
  | .engCtr c d => Sys2Proof.Machine.execEngCtr c d s
  | .engGhash y d => Sys2Proof.Machine.execEngGhash y d s
  | .engEnc b => Sys2Proof.Machine.execEngEnc b s

end Sys2Proof.Machine
end

