-- ==== Sys2Proof/Machine/Fetch.lean ====
section
/-! DEFINITION. What the machine does next: the reset input, the descriptor at the head of HC, a request standing on EP, or waiting. -/

namespace Sys2Proof.Machine

/-- What one step finds, with the state after the bytes it takes are consumed (20_memory.md R59). -/
inductive Fetched where
  /-- a whole descriptor of a row -/
  | run (i : Instr) (s : State)
  /-- a whole command descriptor that matches no row (30_encoding.md R86) -/
  | illegal (s : State)
  /-- the reset input -/
  | reset (s : State)
  /-- nothing whole has arrived: the block waits with all state retained (R82, 60_exceptions.md R185, log 4) -/
  | wait (s : State)
  /-- bytes on EP that are no request (log 11) -/
  | malformed

/-- What stands on the channels: a request standing on EP is served before the next command is taken (20_memory.md
R60 (c), (d); log 11); else the descriptor at the head of HC. -/
def fetchChannels (s : State) : Fetched :=
  if s.epPending = [] then
    match decode .hc s.hc with
    | .incomplete => .wait s
    | .illegal _ rest => .illegal { s with hc := rest }
    | .instr i rest => .run i { s with hc := rest }
  else
    match decode .ep s.epPending with
    | .incomplete => .wait s
    | .illegal _ _ => .malformed
    | .instr i rest => .run i { s with epPending := rest }

/-- The reset input comes before anything that stands on a channel, whole descriptors included, so that it can fall
between any two commands (70_reset_and_hazards.md R200, R201, R204; log 5). -/
def fetch (s : State) : Fetched :=
  match s.resets with
  | ⟨0, sent⟩ :: later => .reset (s.applyReset sent later)
  | _ => fetchChannels s.tick

/-- `s` with the descriptor of a 128-bit header word and a payload of zero bytes placed where the next step finds it:
at the head of HC, or alone on EP; a reset asserted now is dropped (log 14). -/
def placeWord (s : State) (h : Block) : State :=
  let resets := s.resets.dropWhile fun r => r.after == 0
  match channelOfWord h with
  | .hc => { s with hc := zeroPayloadBytes .hc h ++ s.hc, epPending := [], resets := resets }
  | .ep => { s with epPending := zeroPayloadBytes .ep h, resets := resets }

end Sys2Proof.Machine
end

