-- ==== Sys2Proof/Machine/Step.lean ====
section
/-! DEFINITION. One step of the machine. -/

namespace Sys2Proof.Machine

/-- One step: one command in, one response out, state updated atomically (00_scope.md R11, 20_memory.md R58); or one
request on EP answered; or the reset input (70_reset_and_hazards.md R200); or the block waits with all state retained
(60_exceptions.md R185). A block built with NSIZE = 0 is outside the spec (10_state.md R33). -/
def step (s : State) : Host.Outcome State Fault Refusal :=
  if s.nsize = 0 then .refused .zeroNonceSize
  else
    match fetch s with
    | .run i s' => exec i s'
    | .illegal s' => illegalCommand s'
    | .reset s' => .next s'
    | .wait s' => .next s'
    | .malformed => .fault .malformedEngineRequest

/-- `s` with the opcode-table word `w` where `step` takes its next instruction. The table gives every row the same 128
bits; the payload the header announces is zero bytes (log 14). -/
def State.withFetchWord (s : State) (_nbits w : Nat) : State := placeWord s (BitVec.ofNat 128 w)

end Sys2Proof.Machine
end

