-- ==== Sys2Proof/Safety.lean ====
section
/-! DEFINITION. What claims are stated in: the registers a fault must not touch, the state of a message in progress, the invariant of every step, one-shot GCM, and runs of commands. -/

namespace Sys2Proof.Machine

/-! ### Groups of registers -/

/-- The data registers of 60_exceptions.md R176 at their reset values (10_state.md R36). -/
def State.DataZero (s : State) : Prop :=
  s.y = 0 ∧ s.adbits = 0 ∧ s.ctlen = 0 ∧ s.ctr = 0 ∧ s.tm = 0 ∧ s.pb = Vector.replicate 15 0 ∧ s.pblen = 0 ∧
    s.mode = .enc

/-- The same data registers in both states (R176: Y, ADBITS, CTLEN, CTR, TM, PB, PBLEN, MODE). -/
def SameData (s t : State) : Prop :=
  t.y = s.y ∧ t.adbits = s.adbits ∧ t.ctlen = s.ctlen ∧ t.ctr = s.ctr ∧ t.tm = s.tm ∧ t.pb = s.pb ∧
    t.pblen = s.pblen ∧ t.mode = s.mode

/-- What no command changes: NSIZE, the engine, and what has not been consumed of the host's inputs. -/
def SameSurroundings (s t : State) : Prop :=
  t.nsize = s.nsize ∧ t.engine = s.engine ∧ t.hc = s.hc ∧ t.resets = s.resets ∧ t.epPending = s.epPending

/-- The state after fault entry with cause `c` (60_exceptions.md R176), written field by field. -/
def State.afterFatal (s : State) (c : Cause) : State :=
  { s with cause := c, phase := .faulted, hr := s.hr ++ responseBytes .fatal c [] }

/-- The state after any descriptor while FAULTED (R177), written field by field. -/
def State.afterLatched (s : State) : State := { s with hr := s.hr ++ responseBytes .fatal s.cause [] }

/-- The records of EP for these requests with their answers, in order. -/
def exchanges (l : List (Instr × List Byte)) : List Exchange := l.map fun r => ⟨encode r.1, r.2⟩

/-! ### The state after a command, written field by field from the spec's pseudocode -/

/-- The state after `Init(m)` (41_initialize.md R130), written field by field. -/
def State.afterInit (s : State) (m : Mode) (n a : List Byte) : State :=
  let j0 := engDerive s.engine n
  { s with
    tm := engEnc s.engine j0
    ctr := engInc s.engine j0
    y := if a.length = 0 then 0 else engGhash s.engine 0 (pad16 a)
    adbits := BitVec.ofNat 64 (8 * a.length)
    ctlen := 0
    pb := Vector.replicate 15 0
    pblen := 0
    mode := m
    phase := .active
    hr := s.hr ++ responseBytes .ok .noFault []
    epLog := s.epLog ++ exchanges
      ([(.engDerive n, blockBytes j0), (.engEnc j0, blockBytes (engEnc s.engine j0)),
        (.engInc j0, blockBytes (engInc s.engine j0))] ++
        (if a.length = 0 then []
         else [(.engGhash 0 (pad16 a), blockBytes (engGhash s.engine 0 (pad16 a)))])) }

/-- The state after zeroisation (10_state.md R36), written field by field, with what has been sent and asked. -/
def State.afterClose (s : State) (response : List Byte) (asked : List (Instr × List Byte)) : State :=
  { s with
    y := 0, adbits := 0, ctlen := 0, ctr := 0, tm := 0, pb := Vector.replicate 15 0, pblen := 0, mode := .enc
    phase := .final
    hr := s.hr ++ response
    epLog := s.epLog ++ exchanges asked }

/-! ### A message in progress -/

/-- The counter mode keystream from counter `c`, `k` blocks (40_engine_primitives.md R113). -/
def keystream (e : Engine) (c : Block) (k : Nat) : List Byte :=
  (List.range k).flatMap fun i => blockBytes (engEnc e ((engInc e)^[i] c))

/-- `J0` of a message (R111). -/
def initialCounter (e : Engine) (nonce : List Byte) : Block := engDerive e nonce

/-- The ciphertext of whole blocks `x` taken by NEXT: made from them in ENC, the bytes themselves in DEC and VFY. -/
def cipherOf (m : Mode) (e : Engine) (nonce x : List Byte) : List Byte :=
  if m = .enc then xorBytes x (keystream e (engInc e (initialCounter e nonce)) (x.length / 16)) else x

/-- The registers of a message opened with `nonce` and associated data `ad` that has taken the bytes `x`, in any
fragments (41_initialize.md R130, 10_state.md R25 to R28, 42_next.md R142 to R146). -/
structure State.InMessage (s : State) (nonce ad x : List Byte) : Prop where
  nonce_length : nonce.length = s.nsize.toNat
  ad_length : ad.length < 2 ^ 61
  within : x.length ≤ Config.limit
  tm : s.tm = engEnc s.engine (initialCounter s.engine nonce)
  adbits : s.adbits.toNat = 8 * ad.length
  ctlen : s.ctlen.toNat = x.length
  pending : s.pending = restPart x
  ctr : s.ctr = (engInc s.engine)^[if s.mode = .vfy then 1 else 1 + x.length / 16] (initialCounter s.engine nonce)
  y : s.y = engGhash s.engine (engGhash s.engine 0 (pad16 ad)) (cipherOf s.mode s.engine nonce (wholePart x))

/-- The invariant of every step: NSIZE is legal (10_state.md R33), no request stands on EP between commands
(20_memory.md R60), PB is canonical (10_state.md R28), CAUSE is set exactly while FAULTED (R32), the data registers are
zero while UNINIT or FINAL (R36), and while ACTIVE they are those of a message (R25, R26, R28). -/
structure State.Inv (s : State) : Prop where
  nsize_pos : s.nsize ≠ 0
  ep_idle : s.epPending = []
  canonical : s.pb = pendingCells s.pending
  cause_iff : s.cause ≠ .noFault ↔ s.phase = .faulted
  idle_zero : s.phase = .uninit ∨ s.phase = .final → s.DataZero
  message : s.phase = .active → ∃ nonce ad x, s.InMessage nonce ad x

/-! ### The tables of the spec that claims hold the machine against -/

/-- Which check of 60_exceptions.md R178 fails first for a command while the block is not FAULTED, and its cause. -/
def firstFailing (i : Instr) (s : State) : Option Cause :=
  match i with
  | .initEnc n _ => if n.length ≠ s.nsize.toNat then some .badNonceLen else none
  | .initDec n _ => if n.length ≠ s.nsize.toNat then some .badNonceLen else none
  | .initVfy n _ => if n.length ≠ s.nsize.toNat then some .badNonceLen else none
  | .next d =>
    if s.phase ≠ .active then some .notInitialized
    else if Config.limit < s.ctlen.toNat + d.length then some .lengthLimit
    else none
  | .finEnc =>
    if s.phase ≠ .active then some .notInitialized
    else if s.mode ≠ .enc then some .modeMismatch
    else none
  | .finDec tag =>
    if s.phase ≠ .active then some .notInitialized
    else if s.mode = .enc then some .modeMismatch
    else if tag.length ≠ 16 then some .badTagLen
    else none
  | _ => none

/-- The phase after a command that raises no fault, a column of the table of 10_state.md R31. -/
def phaseAfter (i : Instr) (before : Phase) : Phase :=
  match i with
  | .initEnc _ _ => .active
  | .initDec _ _ => .active
  | .initVfy _ _ => .active
  | .next _ => .active
  | .finEnc => .final
  | .finDec _ => .final
  | _ => before

/-! ### One-shot GCM (43_finalize.md R158) -/

/-- `C = P xor (first len(P) bytes of Eng.enc(inc^1(J0)) || Eng.enc(inc^2(J0)) || ...)`. -/
def gcmCipher (e : Engine) (nonce p : List Byte) : List Byte :=
  xorBytes p ((keystream e (engInc e (initialCounter e nonce)) ((p.length + 15) / 16)).take p.length)

/-- `T = S xor Eng.enc(J0)`, `S` the fold of the padded associated data, the padded ciphertext and the lengths. -/
def gcmTag (e : Engine) (nonce ad c : List Byte) : Block :=
  engGhash e 0 (pad16 ad ++ pad16 c ++ beBytes 8 (8 * ad.length) ++ beBytes 8 (8 * c.length)) ^^^
    engEnc e (initialCounter e nonce)

/-! ### Runs of commands -/

/-- The commands run one after another, stopping at the first fault or refusal. -/
def execAll : List Instr → State → Result
  | [], s => .next s
  | i :: rest, s =>
    match exec i s with
    | .next s' => execAll rest s'
    | .fault r => .fault r
    | .refused r => .refused r

/-- The bytes on HR of successful responses with these payloads. -/
def okResponses (outs : List (List Byte)) : List Byte := (outs.map (responseBytes .ok .noFault)).flatten

end Sys2Proof.Machine
end

