-- ==== Sys2Proof/Certificates/Slice0/Obligations.lean ====
section
/-! DEFINITION. The statements for the provers. "log n" is notes/assumptions/n.md. -/

open Sys2Proof Sys2Proof.Machine

/-! ### Encodings (30_encoding.md) -/

/-- Words written out from 30_encoding.md section 7 and 95_test_vectors.md V-E2 to V-E17 decode to what they stand for. -/
def Obligations.HandWrittenWordsDecode : Prop :=
  decode .hc [0x01, 0x00, 0x00, 0x00, 0x00, 0x00, 0x00, 0x00, 0x00, 0x00, 0x00, 0x00, 0x00, 0x00, 0x00, 0x00]
      = .instr .tagsize [] ∧
    decode .hc [0x12, 0x00, 0x00, 0x02, 0x00, 0x00, 0x00, 0x00, 0x00, 0x00, 0x00, 0x00, 0x00, 0x00, 0x00, 0x01,
        0xCA, 0xFE, 0xAA] = .instr (.initVfy [0xCA, 0xFE] [0xAA]) [] ∧
    decode .hc [0x20, 0x00, 0x00, 0x00, 0x00, 0x00, 0x00, 0x00, 0x00, 0x00, 0x00, 0x00, 0x00, 0x00, 0x00, 0x03,
        0x01, 0x02, 0x03, 0x30] = .instr (.next [0x01, 0x02, 0x03]) [0x30] ∧
    decode .hc [0x31, 0x00, 0x00, 0x00, 0x00, 0x00, 0x00, 0x00, 0x00, 0x00, 0x00, 0x00, 0x00, 0x00, 0x00, 0x01,
        0xFF] = .instr (.finDec [0xFF]) [] ∧
    decode .ep [0x01, 0x00, 0x00, 0x00, 0x00, 0x00, 0x00, 0x00, 0x00, 0x00, 0x00, 0x00, 0x00, 0x00, 0x00, 0x02,
        0xCA, 0xFE] = .instr (.engDerive [0xCA, 0xFE]) [] ∧
    decode .hc [0x20, 0x00, 0x00, 0x01, 0x00, 0x00, 0x00, 0x00, 0x00, 0x00, 0x00, 0x00, 0x00, 0x00, 0x00, 0x00,
        0xAB, 0x01] = .illegal .nonceOperand [0x01]

/-- Decoding the encoding of any well-formed instruction, with any bytes after it, gives the instruction back with
every operand, and those bytes. -/
def Obligations.DecodeOfEncodeIsTheInstruction : Prop :=
  ∀ (i : Instr) (rest : List Byte), i.wf = true → decode i.channel (encode i ++ rest) = .instr i rest

/-- A stream decodes to an instruction only if it starts with that instruction's one encoding: each descriptor has one
meaning, and the decoder yields well-formed instructions of the channel it reads. -/
def Obligations.DecodedBytesAreTheEncoding : Prop :=
  ∀ (ch : Channel) (bs : List Byte) (i : Instr) (rest : List Byte),
    decode ch bs = .instr i rest → i.wf = true ∧ i.channel = ch ∧ bs = encode i ++ rest

/-- R83: a header selects a row exactly when `H and mask = match`, no two rows match the same header, and the row's
`OP` is the one printed there. -/
def Obligations.HeadersSelectRowsByMaskAndMatch : Prop :=
  (∀ (h : Block) (op : Opcode),
      commandOf h = .ok op ↔ ∃ r ∈ commandMap, r.opcode = op ∧ h &&& r.mask = r.matchBits) ∧
    (∀ (h : Block) (r₁ r₂ : MapRow), r₁ ∈ commandMap → r₂ ∈ commandMap →
      h &&& r₁.mask = r₁.matchBits → h &&& r₂.mask = r₂.matchBits → r₁ = r₂) ∧
    (∀ r ∈ commandMap, hdrOp r.matchBits = r.opcode.code)

/-- R86: which headers are illegal, and what executing an illegal descriptor does: cause 5 unless FAULTED, the payload
consumed and ignored. That the step which takes it is one at which no reset is asserted, and that it counts the host's
resets down (`s.tick`), is the model's choice (log 5). -/
def Obligations.IllegalDescriptorsRaiseCauseFive : Prop :=
  (∀ h : Block, (∃ why, commandOf h = .error why) ↔
      hdrOp h ∉ ([0x01, 0x10, 0x11, 0x12, 0x20, 0x30, 0x31] : List Byte) ∨ hdrRsv1 h ≠ 0 ∨ hdrRsv2 h ≠ 0 ∨
        (hdrNlen h ≠ 0 ∧ hdrOp h ∉ ([0x10, 0x11, 0x12] : List Byte)) ∨
        (hdrDlen h ≠ 0 ∧ hdrOp h ∈ ([0x30, 0x01] : List Byte)) ∨
        (2 ^ 61 ≤ (hdrDlen h).toNat ∧ hdrOp h ∈ ([0x10, 0x11, 0x12] : List Byte))) ∧
    ∀ (s : State) (h : Block) (payload rest : List Byte), s.nsize ≠ 0 → s.resetDue = false → s.epPending = [] →
      (∃ why, commandOf h = .error why) → payload.length = (hdrNlen h).toNat + (hdrDlen h).toNat →
      s.hc = blockBytes h ++ payload ++ rest →
      (s.phase ≠ .faulted → step s = .next (({ s.tick with hc := rest } : State).afterFatal .illegalCommand)) ∧
        (s.phase = .faulted → step s = .next (({ s.tick with hc := rest } : State).afterLatched))

/-- 30_encoding.md R82, 60_exceptions.md R185: while no whole descriptor has arrived (an empty HC, a part of a header,
a header with fewer bytes after it than it announces, whatever its OP) the block waits with all state retained and sends
nothing. Which byte strings are incomplete is said too. That waiting is a step, and that it counts the host's resets
down, is the model's choice (log 4, log 5). -/
def Obligations.IncompleteDescriptorWaits : Prop :=
  (∀ s : State, s.nsize ≠ 0 → s.resetDue = false → s.epPending = [] → decode .hc s.hc = .incomplete →
      step s = .next { s with resets := countDown s.resets } ∧ (s.resets = [] → step s = .next s)) ∧
    (∀ bs : List Byte, bs.length < 16 → decode .hc bs = .incomplete) ∧
    ∀ (h : Block) (payload : List Byte),
      decode .hc (blockBytes h ++ payload) = .incomplete ↔ payload.length < (hdrNlen h).toNat + (hdrDlen h).toNat

/-- 30_encoding.md R88 with R89 and 60_exceptions.md R171: the bytes of a response, its length, and that different
responses have different bytes. -/
def Obligations.ResponseBytesAreTheDescriptor : Prop :=
  (∀ (st : Status) (c : Cause) (out : List Byte),
      (responseBytes st c out).length = 16 + out.length ∧
        (responseBytes st c out).take 8 = [st.code, c.code, 0, 0, 0, 0, 0, 0] ∧
        unbe (((responseBytes st c out).drop 8).take 8) = out.length % 2 ^ 64 ∧
        (responseBytes st c out).drop 16 = out) ∧
    (∀ (st₁ st₂ : Status) (c₁ c₂ : Cause) (o₁ o₂ r₁ r₂ : List Byte), o₁.length < 2 ^ 64 → o₂.length < 2 ^ 64 →
      responseBytes st₁ c₁ o₁ ++ r₁ = responseBytes st₂ c₂ o₂ ++ r₂ →
      st₁ = st₂ ∧ c₁ = c₂ ∧ o₁ = o₂ ∧ r₁ = r₂) ∧
    ([Status.ok, .authFail, .fatal].map Status.code = [0x01, 0x02, 0x03]) ∧
    ([Cause.noFault, .badNonceLen, .notInitialized, .lengthLimit, .badTagLen, .illegalCommand, .modeMismatch].map
      Cause.code = [0, 1, 2, 3, 4, 5, 6])

/-- 10_state.md R22: byte i of a register's block is its bits [127-8i : 120-8i], and the mapping is a bijection between
registers and 16-byte sequences. -/
def Obligations.RegisterBytesAreBigEndian : Prop :=
  (∀ (b : Block) (i : Nat), i < 16 → (blockBytes b)[i]? = some (b.extractLsb' (120 - 8 * i) 8)) ∧
    (∀ b : Block, (blockBytes b).length = 16 ∧ bytesBlock (blockBytes b) = b) ∧
    (∀ l : List Byte, l.length = 16 → blockBytes (bytesBlock l) = l)

/-! ### The step -/

/-- Where the host asserts no reset now, the bytes at the head of HC decode to a command and nothing stands on EP, the
step is that command's meaning on the state with the descriptor consumed and the host's resets counted down (log 5).
Where the bytes standing on EP decode to an engine request, it is that request's meaning with the request consumed
(log 11). -/
def Obligations.StepRunsTheDecodedInstruction : Prop :=
  (∀ (s : State) (i : Instr) (rest : List Byte), s.nsize ≠ 0 → s.resetDue = false → s.epPending = [] →
      decode .hc s.hc = .instr i rest → step s = exec i { s with hc := rest, resets := countDown s.resets }) ∧
    (∀ (s : State) (i : Instr) (rest : List Byte), s.nsize ≠ 0 → s.resetDue = false → s.epPending ≠ [] →
      decode .ep s.epPending = .instr i rest →
      step s = exec i { s with epPending := rest, resets := countDown s.resets })

/-- The placed opcode-table word is what the next step runs, and `decodeTableWord` names it; a reset asserted now is
dropped (log 14). -/
def Obligations.PlacedWordIsRunByTheNextStep : Prop :=
  ∀ (s : State) (n w : Nat) (i : Instr), s.nsize ≠ 0 → decodeTableWord n w = some i →
    step (s.withFetchWord n w) =
      exec i { s with epPending := [], resets := countDown (s.resets.dropWhile fun r => r.after == 0) }

/-- R200: an asserted reset puts every register at its reset value, drops everything on HC (whole descriptors waiting
there and the bytes of a partly received one) and any request standing unanswered on EP, sends no response, and leaves
NSIZE alone. It does so from every phase and whatever stands on the channels. How the host's resets are held is the
model's choice (log 5), and so is that the records of HR and EP stay (log 6). -/
def Obligations.ResetInputRestoresTheResetState : Prop :=
  ∀ (s : State) (sent : List Byte) (later : List ResetInput), s.nsize ≠ 0 → s.resets = ⟨0, sent⟩ :: later →
    step s = .next
      { y := 0, adbits := 0, ctlen := 0, ctr := 0, tm := 0, pb := Vector.replicate 15 0, pblen := 0, mode := .enc,
        phase := .uninit, cause := .noFault, nsize := s.nsize, engine := s.engine, hc := sent, resets := later,
        hr := s.hr, epPending := [], epLog := s.epLog }

/-- 70_reset_and_hazards.md R204: the host may assert reset between commands at any time. Every step but a reset brings
the next reset one step nearer and does nothing else to the host's resets, whatever it runs, so that a reset may fall
between any two of the steps a given input makes (log 5). -/
def Obligations.ResetMayFallBetweenAnyTwoSteps : Prop :=
  (∀ s t : State, step s = .next t →
      t.resets = if s.resetDue = true then s.resets.tail else countDown s.resets) ∧
    (∀ (s : State) (n : Nat) (sent : List Byte) (later : List ResetInput),
      s.resets = ⟨n + 1, sent⟩ :: later → s.resetDue = false ∧ countDown s.resets = ⟨n, sent⟩ :: later)

/-- R35: the reset values. -/
def Obligations.ResetValuesAreZero : Prop :=
  State.reset.y = 0 ∧ State.reset.adbits = 0 ∧ State.reset.ctlen = 0 ∧ State.reset.ctr = 0 ∧ State.reset.tm = 0 ∧
    State.reset.pb = Vector.replicate 15 0 ∧ State.reset.pblen = 0 ∧ State.reset.mode = .enc ∧
    State.reset.phase = .uninit ∧ State.reset.cause = .noFault ∧ Mode.enc.code = 0 ∧ Phase.uninit.code = 0 ∧
    Cause.noFault.code = 0

/-- The step answers a next state but for the model's two stops, a block built with NSIZE = 0 (log 3) and bytes on EP
that are no request (log 11). Four things in it are the model's choice: that waiting for a whole descriptor or request,
which 70_reset_and_hazards.md R210 calls waiting only, is a step that answers a next state (log 4); that an asserted
reset is taken before whatever stands on EP, malformed bytes too (log 5); that such bytes are a fault (log 11); and that
the engine always answers and HR always accepts (log 15). -/
def Obligations.StepAnswersButForTheTwoStops : Prop :=
  ∀ s : State, (∃ t, step s = .next t) ↔
    s.nsize ≠ 0 ∧ (s.resetDue = true ∨ s.epPending = [] ∨ ∀ why rest, decode .ep s.epPending ≠ .illegal why rest)

/-! ### TAGSIZE -/

/-- R165: the answer, that nothing else changes, the faults. -/
def Obligations.TagsizeAnswersSixteen : Prop :=
  (∀ s : State, s.phase ≠ .faulted →
      exec .tagsize s =
        .next { s with hr := s.hr ++ [0x01, 0, 0, 0, 0, 0, 0, 0, 0, 0, 0, 0, 0, 0, 0, 0x01, 0x10] }) ∧
    (∀ s : State, s.phase = .faulted → exec .tagsize s = .next s.afterLatched) ∧
    (∀ h : Block, hdrOp h = 0x01 → (commandOf h = .ok .tagsize ↔
      hdrNlen h = 0 ∧ hdrDlen h = 0 ∧ hdrRsv1 h = 0 ∧ hdrRsv2 h = 0))

/-! ### INIT_* -/

/-- R130 with its three commands: every register written, the engine requests in order, the response; everything else
is unchanged. A nonce of the wrong length raises cause 1 and changes nothing else. -/
def Obligations.InitOpensAMessage : Prop :=
  ∀ (s : State) (n a : List Byte), s.phase ≠ .faulted → a.length < 2 ^ 61 →
    (n.length = s.nsize.toNat →
      exec (.initEnc n a) s = .next (s.afterInit .enc n a) ∧
        exec (.initDec n a) s = .next (s.afterInit .dec n a) ∧
        exec (.initVfy n a) s = .next (s.afterInit .vfy n a) ∧
        (s.afterInit .enc n a).adbits.toNat = 8 * a.length) ∧
    (n.length ≠ s.nsize.toNat →
      exec (.initEnc n a) s = .next (s.afterFatal .badNonceLen) ∧
        exec (.initDec n a) s = .next (s.afterFatal .badNonceLen) ∧
        exec (.initVfy n a) s = .next (s.afterFatal .badNonceLen))

/-- R134: the nonce length check of the three commands, before any engine request and any register. -/
def Obligations.WrongNonceLengthIsFatal : Prop :=
  ∀ (s : State) (n a : List Byte), s.phase ≠ .faulted → n.length ≠ s.nsize.toNat →
    ∀ i ∈ [Instr.initEnc n a, .initDec n a, .initVfy n a],
      exec i s = .next (s.afterFatal .badNonceLen) ∧ (s.afterFatal .badNonceLen).phase = .faulted ∧
        (s.afterFatal .badNonceLen).epLog = s.epLog

/-! ### NEXT -/

/-- R144: the encrypt path, whole blocks present; with none, the fragment is absorbed (R143). CTR advances by one for
each block. Everything not named is unchanged. -/
def Obligations.NextEncryptsThenFolds : Prop :=
  ∀ (s : State) (d : List Byte), s.phase = .active → s.mode = .enc →
    s.ctlen.toNat + d.length ≤ Config.limit →
    let buf := s.pending ++ d
    let n := 16 * (buf.length / 16)
    let head := buf.take n
    let rest := buf.drop n
    let o := engCtr s.engine s.ctr head
    o.2 = (engInc s.engine)^[n / 16] s.ctr ∧
    (n > 0 → exec (.next d) s = .next
      { s with
        ctlen := BitVec.ofNat 64 (s.ctlen.toNat + d.length)
        ctr := o.2
        y := engGhash s.engine s.y o.1
        pb := pendingCells rest
        pblen := BitVec.ofNat 4 rest.length
        hr := s.hr ++ responseBytes .ok .noFault o.1
        epLog := s.epLog ++ exchanges
          [(.engCtr s.ctr head, o.1 ++ blockBytes o.2),
           (.engGhash s.y o.1, blockBytes (engGhash s.engine s.y o.1))] }) ∧
    (n = 0 → exec (.next d) s = .next
      { s with
        ctlen := BitVec.ofNat 64 (s.ctlen.toNat + d.length)
        pb := pendingCells buf
        pblen := BitVec.ofNat 4 buf.length
        hr := s.hr ++ responseBytes .ok .noFault [] })

/-- R145: the decrypt path: the ciphertext is folded first, then decrypted. -/
def Obligations.NextFoldsThenDecrypts : Prop :=
  ∀ (s : State) (d : List Byte), s.phase = .active → s.mode = .dec →
    s.ctlen.toNat + d.length ≤ Config.limit →
    let buf := s.pending ++ d
    let n := 16 * (buf.length / 16)
    let head := buf.take n
    let rest := buf.drop n
    let o := engCtr s.engine s.ctr head
    (n > 0 → exec (.next d) s = .next
      { s with
        ctlen := BitVec.ofNat 64 (s.ctlen.toNat + d.length)
        ctr := o.2
        y := engGhash s.engine s.y head
        pb := pendingCells rest
        pblen := BitVec.ofNat 4 rest.length
        hr := s.hr ++ responseBytes .ok .noFault o.1
        epLog := s.epLog ++ exchanges
          [(.engGhash s.y head, blockBytes (engGhash s.engine s.y head)),
           (.engCtr s.ctr head, o.1 ++ blockBytes o.2)] }) ∧
    (n = 0 → exec (.next d) s = .next
      { s with
        ctlen := BitVec.ofNat 64 (s.ctlen.toNat + d.length)
        pb := pendingCells buf
        pblen := BitVec.ofNat 4 buf.length
        hr := s.hr ++ responseBytes .ok .noFault [] })

/-- R146: the verify-only path: only a fold; CTR is not advanced and the output is empty. -/
def Obligations.NextVerifyOnlyFolds : Prop :=
  ∀ (s : State) (d : List Byte), s.phase = .active → s.mode = .vfy →
    s.ctlen.toNat + d.length ≤ Config.limit →
    let buf := s.pending ++ d
    let n := 16 * (buf.length / 16)
    let head := buf.take n
    let rest := buf.drop n
    (n > 0 → exec (.next d) s = .next
      { s with
        ctlen := BitVec.ofNat 64 (s.ctlen.toNat + d.length)
        y := engGhash s.engine s.y head
        pb := pendingCells rest
        pblen := BitVec.ofNat 4 rest.length
        hr := s.hr ++ responseBytes .ok .noFault []
        epLog := s.epLog ++ exchanges
          [(.engGhash s.y head, blockBytes (engGhash s.engine s.y head))] }) ∧
    (n = 0 → exec (.next d) s = .next
      { s with
        ctlen := BitVec.ofNat 64 (s.ctlen.toNat + d.length)
        pb := pendingCells buf
        pblen := BitVec.ofNat 4 buf.length
        hr := s.hr ++ responseBytes .ok .noFault [] })

/-- R143: what NEXT leaves in the Pending Buffer, and how CTLEN and PBLEN move (R142), in every mode: the last
`len(buf) mod 16` bytes of `buf`, the cells beyond them zero. -/
def Obligations.NextLeavesTheRestPending : Prop :=
  ∀ (s : State) (d : List Byte), s.phase = .active → s.ctlen.toNat + d.length ≤ Config.limit →
    ∃ t, exec (.next d) s = .next t ∧
      t.pending = (s.pending ++ d).drop (16 * ((s.pending ++ d).length / 16)) ∧
      t.pblen.toNat = (s.pblen.toNat + d.length) % 16 ∧
      t.pb = pendingCells t.pending ∧
      t.ctlen.toNat = s.ctlen.toNat + d.length ∧
      (s.pblen.toNat + d.length < 16 → t.pending = s.pending ++ d ∧ t.epLog = s.epLog ∧
        t.hr = s.hr ++ responseBytes .ok .noFault [])

/-- 42_next.md R147 and 20_memory.md R67: the number of output bytes, a whole number of blocks. -/
def Obligations.NextOutputIsWholeBlocks : Prop :=
  ∀ (s : State) (d : List Byte), s.phase = .active → s.ctlen.toNat + d.length ≤ Config.limit →
    ∃ t out, exec (.next d) s = .next t ∧ t.hr = s.hr ++ responseBytes .ok .noFault out ∧
      out.length = if s.mode = .vfy then 0 else 16 * ((s.pblen.toNat + d.length) / 16)

/-- R141, R174: the limit test in exact arithmetic, in every mode: a fragment that keeps the total within LIMIT is
taken, one byte more is cause 3 and changes nothing else. -/
def Obligations.LengthLimitIsExact : Prop :=
  Config.limit = 68719476704 ∧
    ∀ (s : State) (d : List Byte), s.phase = .active →
      (s.ctlen.toNat + d.length > 68719476704 → exec (.next d) s = .next (s.afterFatal .lengthLimit)) ∧
        (s.ctlen.toNat + d.length ≤ 68719476704 →
          ∃ t, exec (.next d) s = .next t ∧ t.phase = .active ∧ t.cause = s.cause ∧
            t.ctlen.toNat = s.ctlen.toNat + d.length)

/-- R148 (a): an empty fragment is legal and changes nothing but the response sent, where PB is canonical. -/
def Obligations.EmptyFragmentChangesNothing : Prop :=
  ∀ s : State, s.phase = .active → s.ctlen.toNat ≤ Config.limit → s.pb = pendingCells s.pending →
    exec (.next []) s = .next { s with hr := s.hr ++ responseBytes .ok .noFault [] }

/-! ### FIN_ENC and FIN_DEC -/

/-- FIN_ENC (43_finalize.md R152): the tail and the tag, the requests in order, zeroisation. The tail takes the first
PBLEN bytes of the keystream block and the length block is two 64-bit big-endian numbers: the spec's own passages from
general knowledge (R150, R151, log 8). -/
def Obligations.FinEncSealsTheMessage : Prop :=
  ∀ s : State, s.phase = .active → s.mode = .enc →
    let ks := engEnc s.engine s.ctr
    let tail := xorBytes s.pending ((blockBytes ks).take s.pblen.toNat)
    let y₁ := engGhash s.engine s.y (pad16 tail)
    let l := beBytes 8 s.adbits.toNat ++ beBytes 8 (8 * s.ctlen.toNat)
    (s.pblen ≠ 0 → exec .finEnc s = .next (s.afterClose
      (responseBytes .ok .noFault (tail ++ blockBytes (engGhash s.engine y₁ l ^^^ s.tm)))
      [(.engEnc s.ctr, blockBytes ks), (.engGhash s.y (pad16 tail), blockBytes y₁),
       (.engGhash y₁ l, blockBytes (engGhash s.engine y₁ l))])) ∧
    (s.pblen = 0 → exec .finEnc s = .next (s.afterClose
      (responseBytes .ok .noFault (blockBytes (engGhash s.engine s.y l ^^^ s.tm)))
      [(.engGhash s.y l, blockBytes (engGhash s.engine s.y l))]))

/-- FIN_DEC in mode DEC (43_finalize.md R153, R155): the ciphertext tail is folded, then decrypted; the plaintext tail
is sent only where the tag matches; both outcomes zeroise and ask the engine the same. The first PBLEN bytes of the
keystream block and the layout of the length block are the spec's own passages (R150, R151, log 8). -/
def Obligations.FinDecOpensTheMessage : Prop :=
  ∀ (s : State) (tag : List Byte), s.phase = .active → s.mode = .dec → tag.length = 16 →
    let ks := engEnc s.engine s.ctr
    let tail := xorBytes s.pending ((blockBytes ks).take s.pblen.toNat)
    let y₁ := engGhash s.engine s.y (pad16 s.pending)
    let l := beBytes 8 s.adbits.toNat ++ beBytes 8 (8 * s.ctlen.toNat)
    let asked : List (Instr × List Byte) :=
      if s.pblen = 0 then [(.engGhash s.y l, blockBytes (engGhash s.engine s.y l))]
      else [(.engGhash s.y (pad16 s.pending), blockBytes y₁), (.engEnc s.ctr, blockBytes ks),
        (.engGhash y₁ l, blockBytes (engGhash s.engine y₁ l))]
    (tag = blockBytes (engGhash s.engine y₁ l ^^^ s.tm) →
      exec (.finDec tag) s = .next (s.afterClose (responseBytes .ok .noFault tail) asked)) ∧
    (tag ≠ blockBytes (engGhash s.engine y₁ l ^^^ s.tm) →
      exec (.finDec tag) s = .next (s.afterClose (responseBytes .authFail .noFault []) asked))

/-- FIN_DEC in mode VFY (43_finalize.md R153): the same verdict from the same registers, no plaintext and no keystream
request. -/
def Obligations.FinDecVerifiesTheMessage : Prop :=
  ∀ (s : State) (tag : List Byte), s.phase = .active → s.mode = .vfy → tag.length = 16 →
    let y₁ := engGhash s.engine s.y (pad16 s.pending)
    let l := beBytes 8 s.adbits.toNat ++ beBytes 8 (8 * s.ctlen.toNat)
    let asked : List (Instr × List Byte) :=
      if s.pblen = 0 then [(.engGhash s.y l, blockBytes (engGhash s.engine s.y l))]
      else [(.engGhash s.y (pad16 s.pending), blockBytes y₁),
        (.engGhash y₁ l, blockBytes (engGhash s.engine y₁ l))]
    (tag = blockBytes (engGhash s.engine y₁ l ^^^ s.tm) →
      exec (.finDec tag) s = .next (s.afterClose (responseBytes .ok .noFault []) asked)) ∧
    (tag ≠ blockBytes (engGhash s.engine y₁ l ^^^ s.tm) →
      exec (.finDec tag) s = .next (s.afterClose (responseBytes .authFail .noFault []) asked))

/-- R157: the legality of the finalise commands, in the order (a) phase, (b) mode, (c) tag length. -/
def Obligations.FinaliseLegality : Prop :=
  ∀ (s : State) (tag : List Byte), s.phase ≠ .faulted →
    (s.phase ≠ .active → exec .finEnc s = .next (s.afterFatal .notInitialized) ∧
      exec (.finDec tag) s = .next (s.afterFatal .notInitialized)) ∧
    (s.phase = .active → s.mode ≠ .enc → exec .finEnc s = .next (s.afterFatal .modeMismatch)) ∧
    (s.phase = .active → s.mode = .enc → exec (.finDec tag) s = .next (s.afterFatal .modeMismatch)) ∧
    (s.phase = .active → s.mode ≠ .enc → tag.length ≠ 16 →
      exec (.finDec tag) s = .next (s.afterFatal .badTagLen))

/-- R154: the comparison is equality of the two 16-byte sequences. -/
def Obligations.CtEqualIsEquality : Prop :=
  ∀ a b : List Byte, a.length = 16 → b.length = 16 → (ctEqual a b = true ↔ a = b)

/-- R36: every accepted FIN_ENC and FIN_DEC, whatever the verdict, zeroises, sets FINAL and leaves CAUSE. -/
def Obligations.FinaliseZeroises : Prop :=
  ∀ (s : State) (tag : List Byte), s.phase = .active →
    (s.mode = .enc → ∃ t, exec .finEnc s = .next t ∧ t.DataZero ∧ t.phase = .final ∧ t.cause = s.cause) ∧
    (s.mode ≠ .enc → tag.length = 16 →
      ∃ t, exec (.finDec tag) s = .next t ∧ t.DataZero ∧ t.phase = .final ∧ t.cause = s.cause)

/-! ### Faults (60_exceptions.md) -/

/-- R173: NEXT, FIN_ENC and FIN_DEC outside ACTIVE, with any operands. -/
def Obligations.NotInitializedOutsideActive : Prop :=
  ∀ (s : State) (d tag : List Byte), s.phase = .uninit ∨ s.phase = .final →
    exec (.next d) s = .next (s.afterFatal .notInitialized) ∧
      exec .finEnc s = .next (s.afterFatal .notInitialized) ∧
      exec (.finDec tag) s = .next (s.afterFatal .notInitialized)

/-- R176: a command that raises a fault writes CAUSE and PHASE and answers FATAL; no data register, no engine request,
no output, and nothing else changes. So does an illegal descriptor, which is consumed. That the step which takes the
illegal descriptor is one at which no reset is asserted, and that it counts the host's resets down (`s.tick`), is the
model's choice (log 5). -/
def Obligations.FaultEntryChangesOnlyCauseAndPhase : Prop :=
  (∀ (s t : State) (i : Instr), i.channel = .hc → s.phase ≠ .faulted → exec i s = .next t → t.phase = .faulted →
      ∃ c, c ≠ .noFault ∧ t = s.afterFatal c ∧ SameData s t ∧ SameSurroundings s t ∧ t.epLog = s.epLog) ∧
    ∀ (s : State) (why : Illegal) (rest : List Byte), s.nsize ≠ 0 → s.resetDue = false → s.epPending = [] →
      s.phase ≠ .faulted → decode .hc s.hc = .illegal why rest →
      ∃ t, step s = .next t ∧ t = ({ s.tick with hc := rest } : State).afterFatal .illegalCommand ∧ SameData s t ∧
        t.epLog = s.epLog

/-- R177: while FAULTED every descriptor, legal or illegal, is answered FATAL with the latched cause, nothing else
changes, and only reset leaves FAULTED. That the step which takes an illegal descriptor counts the host's resets down
(`s.tick`), and that the reset input is the head of the list `s.resets`, due now, is the model's choice (log 5). -/
def Obligations.FaultedIsStickyUntilReset : Prop :=
  (∀ (s : State) (i : Instr), i.channel = .hc → s.phase = .faulted → exec i s = .next s.afterLatched) ∧
    (∀ (s : State) (why : Illegal) (rest : List Byte), s.nsize ≠ 0 → s.resetDue = false → s.epPending = [] →
      s.phase = .faulted → decode .hc s.hc = .illegal why rest →
      step s = .next (({ s.tick with hc := rest } : State).afterLatched)) ∧
    (∀ s t : State, s.phase = .faulted → step s = .next t →
      (t.phase = .faulted ∧ t.cause = s.cause ∧ SameData s t) ∨
        (t.phase = .uninit ∧ t.cause = .noFault ∧ ∃ b l, s.resets = ⟨0, b⟩ :: l))

/-- R178: the first check that fails decides the outcome: FAULTED, then the header, then the checks of the command
(`firstFailing`). A command none of whose checks fails raises no fault. That the step which takes an illegal descriptor
is one at which no reset is asserted, and that it counts the host's resets down (`s.tick`), is the model's choice
(log 5). -/
def Obligations.FirstFailingCheckDecides : Prop :=
  (∀ (s : State) (i : Instr), i.channel = .hc →
      (s.phase = .faulted → exec i s = .next s.afterLatched) ∧
      (s.phase ≠ .faulted → ∀ c, firstFailing i s = some c → exec i s = .next (s.afterFatal c)) ∧
      (s.phase ≠ .faulted → firstFailing i s = none →
        ∃ t st out, exec i s = .next t ∧ t.phase ≠ .faulted ∧ t.cause = s.cause ∧ st ≠ .fatal ∧
          t.hr = s.hr ++ responseBytes st .noFault out)) ∧
    ∀ (s : State) (why : Illegal) (rest : List Byte), s.nsize ≠ 0 → s.resetDue = false → s.epPending = [] →
      decode .hc s.hc = .illegal why rest →
      step s = .next (if s.phase = .faulted then ({ s.tick with hc := rest } : State).afterLatched
        else ({ s.tick with hc := rest } : State).afterFatal .illegalCommand)

/-- R31: the transition table, every row and column, that of illegal descriptors too. The premise that no reset is
asserted at that step is in the model's own form (log 5). -/
def Obligations.PhaseTransitionTable : Prop :=
  (∀ (s : State) (i : Instr), i.channel = .hc →
      ∃ t, exec i s = .next t ∧
        (t.phase, t.cause) =
          (if s.phase = .faulted then (.faulted, s.cause)
           else match firstFailing i s with
            | some c => (.faulted, c)
            | none => (phaseAfter i s.phase, s.cause))) ∧
    ∀ (s : State) (why : Illegal) (rest : List Byte), s.nsize ≠ 0 → s.resetDue = false → s.epPending = [] →
      decode .hc s.hc = .illegal why rest →
      ∃ t, step s = .next t ∧
        (t.phase, t.cause) = (if s.phase = .faulted then (.faulted, s.cause) else (.faulted, .illegalCommand))

/-! ### Whole-machine rules -/

/-- The invariant holds after reset. -/
def Obligations.InvariantHoldsAtReset : Prop := State.reset.Inv

/-- Every step from a state of the invariant leads to a state of the invariant: the registers of a message in progress
are those of the bytes taken so far, whatever the fragments (R25, R26, R28), the data registers are zero while UNINIT
or FINAL (R36), CAUSE is set exactly while FAULTED (R32), PB is canonical, and no request stands on EP. -/
def Obligations.EveryStepKeepsTheInvariant : Prop :=
  ∀ s t : State, s.Inv → step s = .next t → t.Inv

/-- No step changes NSIZE (10_state.md R33) or the engine, reset included (70_reset_and_hazards.md R202: reset does not
touch the engine). That the engine is the same over a whole run, from one message to the next, is the model's choice
(log 16): the spec fixes the key within a message only (R206). -/
def Obligations.NoStepChangesNsizeOrEngine : Prop :=
  ∀ s t : State, step s = .next t → t.nsize = s.nsize ∧ t.engine = s.engine

/-- 20_memory.md R60 (b) and 30_encoding.md R88: a command sends exactly one response; its CAUSE byte is the register
after the command, and its payload is empty unless the status is OK. -/
def Obligations.OneResponsePerCommand : Prop :=
  ∀ (s t : State) (i : Instr), (s.cause ≠ .noFault ↔ s.phase = .faulted) → i.channel = .hc → exec i s = .next t →
    ∃ st out, t.hr = s.hr ++ responseBytes st t.cause out ∧ (st ≠ .ok → out = []) ∧
      (st = .fatal ↔ t.cause ≠ .noFault) ∧ (st = .authFail → ∃ tag, i = .finDec tag)

/-- 10_state.md R24, R27, R29: TM, ADBITS and MODE are fixed for a message: a command that leaves a message in progress
and does not open one keeps them. -/
def Obligations.MessageConstantsAreFixed : Prop :=
  ∀ (s t : State) (i : Instr), i.channel = .hc → i.opcode.isInit = false → s.phase = .active → t.phase = .active →
    exec i s = .next t → t.tm = s.tm ∧ t.adbits = s.adbits ∧ t.mode = s.mode

/-- 20_memory.md R56 and law EL4: what a command asks the engine is well-formed (a nonce of NSIZE bytes, whole blocks
only), and each answer has the length 30_encoding.md R91 gives it. That a well-formed request carries a nonce of any
length is log 12; that the block's own are NSIZE bytes is stated. -/
def Obligations.EngineSeesWholeBlocksOnly : Prop :=
  ∀ (s t : State) (i : Instr), s.nsize ≠ 0 → i.channel = .hc → i.wf = true → exec i s = .next t →
    ∃ asked : List (Instr × List Byte), t.epLog = s.epLog ++ exchanges asked ∧
      ∀ r ∈ asked, r.1.channel = .ep ∧ r.1.wf = true ∧ (∀ n, r.1 = .engDerive n → n.length = s.nsize.toNat) ∧
        r.2.length = match r.1 with
          | .engCtr _ d => d.length + 16
          | _ => 16

/-- 42_next.md R146 and 43_finalize.md R153: in mode VFY no command but a new INIT_* asks for a keystream block
(`Eng.ctr` 0x03, `Eng.enc` 0x05) or writes CTR before the message is closed, and no output byte is sent. -/
def Obligations.VerifyOnlyNeverMakesKeystream : Prop :=
  ∀ (s t : State) (i : Instr), s.phase = .active → s.mode = .vfy →
    (∃ d, i = .next d) ∨ (∃ tag, i = .finDec tag) → exec i s = .next t →
    (∃ asked : List (Block × List Byte), t.epLog = s.epLog ++
      asked.map fun r => ⟨encode (.engGhash r.1 r.2), blockBytes (engGhash s.engine r.1 r.2)⟩) ∧
      (t.phase = .active → t.ctr = s.ctr) ∧
      ∃ st c, t.hr = s.hr ++ responseBytes st c []

/-! ### Messages (20_memory.md R55, 43_finalize.md R158) -/

/-- NEXT on a message in progress: the message then has taken the fragment's bytes too, and the outputs so far are the
whole blocks of the bytes taken, encrypted or decrypted (42_next.md R142 to R147). -/
def Obligations.NextExtendsTheMessage : Prop :=
  ∀ (s : State) (n a x d : List Byte), s.phase = .active → s.InMessage n a x → x.length + d.length ≤ Config.limit →
    ∃ t out, exec (.next d) s = .next t ∧ t.InMessage n a (x ++ d) ∧ t.mode = s.mode ∧
      t.hr = s.hr ++ responseBytes .ok .noFault out ∧
      (if s.mode = .vfy then out = []
       else (gcmCipher s.engine n x).take (16 * (x.length / 16)) ++ out =
        (gcmCipher s.engine n (x ++ d)).take (16 * ((x.length + d.length) / 16)))

/-- Fragmentation invariance (20_memory.md R55): two partitions of the same bytes leave every register the same and
send the same output bytes. -/
def Obligations.FragmentationDoesNotMatter : Prop :=
  ∀ (s : State) (fs gs : List (List Byte)), s.Inv → s.phase = .active → fs.flatten = gs.flatten →
    s.ctlen.toNat + fs.flatten.length ≤ Config.limit →
    ∃ t u outs outs', execAll (fs.map Instr.next) s = .next t ∧ execAll (gs.map Instr.next) s = .next u ∧
      SameData t u ∧ SameSurroundings t u ∧ u.phase = t.phase ∧ u.cause = t.cause ∧
      t.hr = s.hr ++ okResponses outs ∧ u.hr = s.hr ++ okResponses outs' ∧
      outs.length = fs.length ∧ outs'.length = gs.length ∧ outs.flatten = outs'.flatten

/-- A message encrypted in any fragmentation is the one-shot GCM encryption (43_finalize.md R158): every command is
answered OK and the outputs concatenate to ciphertext and tag. -/
def Obligations.EncryptionIsOneShotGcm : Prop :=
  ∀ (s : State) (n a : List Byte) (fs : List (List Byte)), s.phase ≠ .faulted → n.length = s.nsize.toNat →
    a.length < 2 ^ 61 → fs.flatten.length ≤ Config.limit →
    let c := gcmCipher s.engine n fs.flatten
    ∃ t outs, execAll (.initEnc n a :: fs.map Instr.next ++ [.finEnc]) s = .next t ∧
      t.hr = s.hr ++ okResponses outs ∧ outs.length = fs.length + 2 ∧
      outs.flatten = c ++ blockBytes (gcmTag s.engine n a c) ∧
      t.phase = .final ∧ t.DataZero

/-- A message decrypted in any fragmentation (43_finalize.md R158, R155): with the one-shot tag every command is
answered OK and the outputs concatenate to the plaintext; with any other 16-byte tag the last command is answered
AUTH_FAIL with no payload and only the whole blocks of the plaintext have been sent. -/
def Obligations.DecryptionIsOneShotGcm : Prop :=
  ∀ (s : State) (n a tag : List Byte) (fs : List (List Byte)), s.phase ≠ .faulted → n.length = s.nsize.toNat →
    a.length < 2 ^ 61 → fs.flatten.length ≤ Config.limit → tag.length = 16 →
    let c := fs.flatten
    let p := gcmCipher s.engine n c
    ∃ t outs tail, execAll (.initDec n a :: fs.map Instr.next ++ [.finDec tag]) s = .next t ∧
      outs.length = fs.length + 1 ∧ outs.flatten = p.take (16 * (c.length / 16)) ∧ outs.flatten ++ tail = p ∧
      t.hr = s.hr ++ okResponses outs ++
        (if tag = blockBytes (gcmTag s.engine n a c) then responseBytes .ok .noFault tail
         else responseBytes .authFail .noFault []) ∧
      t.phase = .final ∧ t.DataZero

/-- A message verified in any fragmentation (43_finalize.md R158): the verdict of decryption, and no output byte. -/
def Obligations.VerificationIsOneShotGcm : Prop :=
  ∀ (s : State) (n a tag : List Byte) (fs : List (List Byte)), s.phase ≠ .faulted → n.length = s.nsize.toNat →
    a.length < 2 ^ 61 → fs.flatten.length ≤ Config.limit → tag.length = 16 →
    ∃ t, execAll (.initVfy n a :: fs.map Instr.next ++ [.finDec tag]) s = .next t ∧
      t.hr = s.hr ++ okResponses (List.replicate (fs.length + 1) []) ++
        responseBytes (if tag = blockBytes (gcmTag s.engine n a fs.flatten) then .ok else .authFail) .noFault [] ∧
      t.phase = .final ∧ t.DataZero

/-- Round trip (property S1 of 95_test_vectors.md): what is encrypted in any fragments decrypts in any fragments, on any
unfaulted block with the same engine and nonce size, to the plaintext with every command answered OK. -/
def Obligations.DecryptionUndoesEncryption : Prop :=
  ∀ (s u : State) (n a : List Byte) (fs gs : List (List Byte)), s.phase ≠ .faulted → u.phase ≠ .faulted →
    u.engine = s.engine → u.nsize = s.nsize → n.length = s.nsize.toNat → a.length < 2 ^ 61 →
    fs.flatten.length ≤ Config.limit →
    ∃ t outs c tag, execAll (.initEnc n a :: fs.map Instr.next ++ [.finEnc]) s = .next t ∧
      t.hr = s.hr ++ okResponses outs ∧ outs.flatten = c ++ tag ∧ tag.length = 16 ∧
      (gs.flatten = c → ∃ v outs', execAll (.initDec n a :: gs.map Instr.next ++ [.finDec tag]) u = .next v ∧
        v.hr = u.hr ++ okResponses outs' ∧ outs'.flatten = fs.flatten)

/-! ### The Base Engine (40_engine_primitives.md) -/

/-- R110 to R115 with 30_encoding.md R91: the engine answers each of the five requests; the exchange is recorded on EP
and no register of the block, nor anything else, changes (log 11). -/
def Obligations.EngineRequestsAreAnswered : Prop :=
  ∀ (s : State) (n d : List Byte) (b : Block),
    exec (.engDerive n) s = .next
        { s with epLog := s.epLog ++ exchanges [(.engDerive n, blockBytes (engDerive s.engine n))] } ∧
      exec (.engInc b) s = .next
        { s with epLog := s.epLog ++ exchanges [(.engInc b, blockBytes (engInc s.engine b))] } ∧
      exec (.engCtr b d) s = .next
        { s with
          epLog := s.epLog ++
            exchanges [(.engCtr b d, (engCtr s.engine b d).1 ++ blockBytes (engCtr s.engine b d).2)] } ∧
      exec (.engGhash b d) s = .next
        { s with epLog := s.epLog ++ exchanges [(.engGhash b d, blockBytes (engGhash s.engine b d))] } ∧
      exec (.engEnc b) s = .next
        { s with epLog := s.epLog ++ exchanges [(.engEnc b, blockBytes (engEnc s.engine b))] }

/-- Laws EL2, EL3 and EL4 of R117: counter mode unrolls and composes, GHASH composes, and the answers have the lengths
of 30_encoding.md R91. EL1 is that the functions are functions. Counter mode and GHASH are built to keep them (log 1). -/
def Obligations.EngineLawsHold : Prop :=
  ∀ (e : Engine) (c y : Block) (d₁ d₂ : List Byte), d₁.length % 16 = 0 → d₂.length % 16 = 0 →
    (d₁.length = 16 →
      engCtr e c d₁ = (xorBytes d₁ (blockBytes (engEnc e c)), engInc e c)) ∧
    (let r₁ := engCtr e c d₁
     let r₂ := engCtr e r₁.2 d₂
     engCtr e c (d₁ ++ d₂) = (r₁.1 ++ r₂.1, r₂.2)) ∧
    engGhash e y (d₁ ++ d₂) = engGhash e (engGhash e y d₁) d₂ ∧
    (engCtr e c d₁).1.length = d₁.length ∧
    ∀ b ∈ [engEnc e c, engInc e c, (engCtr e c d₁).2, engGhash e y d₁, engDerive e d₁], (blockBytes b).length = 16

/-- R112: the increment of the low-order 32 bits, the other 96 unchanged, and law: within a message the counter does not
return to J0. That the low-order bits are [31:0] is the spec's passage from general knowledge (log 7). -/
def Obligations.IncrementIsLowThirtyTwoBits : Prop :=
  (∀ (e : Engine) (c : Block),
      (engInc e c).extractLsb' 32 96 = c.extractLsb' 32 96 ∧
        ((engInc e c).extractLsb' 0 32).toNat = ((c.extractLsb' 0 32).toNat + 1) % 2 ^ 32) ∧
    ∀ (e : Engine) (c : Block) (k : Nat), 0 < k → k < 2 ^ 32 → (engInc e)^[k] c ≠ c

/-- The instantiations of R122 and R123 on vectors of 95_test_vectors.md (V-P2, V-P10, V-P12, V-P20, V-P25): the spec's
own instantiations, AES from general knowledge (log 9). -/
def Obligations.InstantiationsMatchTheVectors : Prop :=
  engDerive .toy [1, 2, 3, 4, 5, 6, 7, 8, 9, 10, 11, 12] = 0x0102030405060708090A0B0C0000000C ∧
    engEnc .toy 0x000102030405060708090A0B0C0D0E0F = 0xA4A7A6A1A0A3A2ADACAFAEA9A8ABAAA5 ∧
    engGhash .toy 0 (blockBytes 0x000102030405060708090A0B0C0D0E0F ++ blockBytes 0x101112131415161718191A1B1C1D1E1F)
      = 0x1311171113111F111311171113111F11 ∧
    engEnc (.aes 0) 0 = 0x66E94BD4EF8A2C3B884CFA59CA342B2E ∧
    engGhash (.aes 0) 0 (blockBytes 0x0388DACE60B6A392F328C2B971B2FE78) = 0x5E2EC746917062882C85B0685353DEB7
end

