-- ==== Sys2Proof/Laws/Bytes.lean ====
section
/-! SUPPORT. Lemmas about byte order: the big-endian encoding of a number and its inverse, and the bytes of a block. -/

namespace Sys2Proof.Laws

@[simp] theorem beBytes_length (w v : Nat) : (beBytes w v).length = w := by
  induction w with
  | zero => rfl
  | succ w ih => simp [beBytes, ih]

theorem unbe_foldl (l : List Byte) (acc : Nat) :
    l.foldl (fun acc x => acc * 256 + x.toNat) acc = acc * 256 ^ l.length + unbe l := by
  induction l generalizing acc with
  | nil => simp [unbe]
  | cons x l ih =>
    have hx : unbe (x :: l) = (0 * 256 + x.toNat) * 256 ^ l.length + unbe l := ih _
    rw [List.foldl_cons, ih, hx]
    simp only [List.length_cons, pow_succ]
    ring

theorem unbe_cons (x : Byte) (l : List Byte) : unbe (x :: l) = x.toNat * 256 ^ l.length + unbe l := by
  have h := unbe_foldl l (0 * 256 + x.toNat)
  simpa [unbe] using h

theorem unbe_lt (l : List Byte) : unbe l < 256 ^ l.length := by
  induction l with
  | nil => simp [unbe]
  | cons x l ih =>
    rw [unbe_cons, List.length_cons, pow_succ]
    have hx : x.toNat < 256 := x.isLt
    calc x.toNat * 256 ^ l.length + unbe l
        < x.toNat * 256 ^ l.length + 256 ^ l.length := by omega
      _ = (x.toNat + 1) * 256 ^ l.length := by ring
      _ ≤ 256 * 256 ^ l.length := Nat.mul_le_mul_right _ hx
      _ = 256 ^ l.length * 256 := by ring

/-- Decoding a big-endian encoding gives the number back, modulo the width. -/
theorem unbe_beBytes (w v : Nat) : unbe (beBytes w v) = v % 256 ^ w := by
  induction w with
  | zero => simp [beBytes, unbe, Nat.mod_one]
  | succ w ih =>
    rw [beBytes, unbe_cons, ih, beBytes_length, Nat.mod_pow_succ]
    simp only [BitVec.toNat_ofNat]
    ring

/-- Encoding a decoded byte sequence gives the sequence back. -/
theorem beBytes_add_unbe (l : List Byte) (k : Nat) : beBytes l.length (k * 256 ^ l.length + unbe l) = l := by
  induction l generalizing k with
  | nil => rfl
  | cons x l ih =>
    rw [List.length_cons, unbe_cons, beBytes]
    have e : k * 256 ^ (l.length + 1) + (x.toNat * 256 ^ l.length + unbe l)
        = (k * 256 + x.toNat) * 256 ^ l.length + unbe l := by ring
    rw [e, ih]
    congr 1
    have hp : 0 < 256 ^ l.length := by positivity
    rw [Nat.add_comm, Nat.add_mul_div_right _ _ hp, Nat.div_eq_of_lt (unbe_lt l), Nat.zero_add]
    apply BitVec.eq_of_toNat_eq
    have := x.isLt
    simp only [BitVec.toNat_ofNat]
    omega

theorem beBytes_unbe (l : List Byte) : beBytes l.length (unbe l) = l := by
  simpa using beBytes_add_unbe l 0

@[simp] theorem blockBytes_length (b : Block) : (blockBytes b).length = 16 := beBytes_length 16 _

@[simp] theorem bytesBlock_blockBytes (b : Block) : bytesBlock (blockBytes b) = b := by
  apply BitVec.eq_of_toNat_eq
  have := b.isLt
  rw [bytesBlock, blockBytes, unbe_beBytes, BitVec.toNat_ofNat]
  omega

theorem blockBytes_bytesBlock (l : List Byte) (h : l.length = 16) : blockBytes (bytesBlock l) = l := by
  have hl := unbe_lt l
  rw [h] at hl
  rw [blockBytes, bytesBlock, BitVec.toNat_ofNat, Nat.mod_eq_of_lt (by omega)]
  simpa [h] using beBytes_unbe l

theorem blockBytes_injective {a b : Block} (h : blockBytes a = blockBytes b) : a = b := by
  rw [← bytesBlock_blockBytes a, h, bytesBlock_blockBytes]

theorem beBytes_getElem (w v i : Nat) (h : i < (beBytes w v).length) :
    (beBytes w v)[i] = BitVec.ofNat 8 (v / 256 ^ (w - 1 - i)) := by
  induction w generalizing i with
  | zero => simp at h
  | succ w ih =>
    cases i with
    | zero => simp [beBytes]
    | succ i =>
      simp only [beBytes, List.getElem_cons_succ]
      rw [ih]
      congr 3
      omega

/-- Byte `i` of the block form of a register is its bits [127-8i : 120-8i] (10_state.md R22). -/
theorem blockBytes_getElem (b : Block) (i : Nat) (h : i < (blockBytes b).length) :
    (blockBytes b)[i] = b.extractLsb' (120 - 8 * i) 8 := by
  have hi : i < 16 := by simpa using h
  unfold blockBytes at h ⊢
  rw [beBytes_getElem 16 b.toNat i h]
  have e' : (256 : Nat) ^ (15 - i) = 2 ^ (120 - 8 * i) := by
    rw [show (256 : Nat) = 2 ^ 8 by norm_num, ← pow_mul]
    congr 1
    omega
  apply BitVec.eq_of_toNat_eq
  simp [BitVec.extractLsb'_toNat, Nat.shiftRight_eq_div_pow, e']

end Sys2Proof.Laws
end

