-- ==== Sys2Proof/Laws/Engine.lean ====
section
/-! SUPPORT. Lemmas about blocks of a byte sequence, padding, and the engine's functions: counter mode and GHASH on sequences of whole blocks. -/

namespace Sys2Proof.Laws

open Sys2Proof.Machine

/-! ### Whole blocks and the rest -/

theorem wholePart_append_restPart (d : List Byte) : wholePart d ++ restPart d = d := List.take_append_drop _ _

@[simp] theorem wholePart_length (d : List Byte) : (wholePart d).length = 16 * (d.length / 16) := by
  simp only [wholePart, wholeBytes, List.length_take]; omega

@[simp] theorem restPart_length (d : List Byte) : (restPart d).length = d.length % 16 := by
  simp only [restPart, wholeBytes, List.length_drop]; omega

theorem wholePart_eq_self {d : List Byte} (h : d.length % 16 = 0) : wholePart d = d := by
  rw [wholePart, wholeBytes, List.take_of_length_le (by omega)]

theorem restPart_eq_nil {d : List Byte} (h : d.length % 16 = 0) : restPart d = [] := by
  rw [← List.length_eq_zero_iff, restPart_length, h]

/-- The bytes buffered after `x`, with a fragment `d`, have as whole blocks what `x ++ d` has beyond those of `x`. -/
theorem wholePart_append (x d : List Byte) :
    wholePart (x ++ d) = wholePart x ++ wholePart (restPart x ++ d) := by
  have hl : wholeBytes (x ++ d) = (wholePart x).length + wholeBytes (restPart x ++ d) := by
    simp only [wholeBytes, List.length_append, wholePart_length, restPart_length]
    omega
  conv_lhs => rw [wholePart, hl, ← wholePart_append_restPart x, List.append_assoc]
  rw [wholePart_append_restPart, List.take_length_add_append]
  rfl

theorem restPart_append (x d : List Byte) : restPart (x ++ d) = restPart (restPart x ++ d) := by
  have h1 := wholePart_append_restPart (x ++ d)
  have h2 := wholePart_append_restPart (restPart x ++ d)
  have hx := wholePart_append_restPart x
  rw [wholePart_append, List.append_assoc] at h1
  have h3 : wholePart x ++ (wholePart (restPart x ++ d) ++ restPart (restPart x ++ d)) = x ++ d := by
    rw [h2, ← List.append_assoc, hx]
  exact List.append_cancel_left (List.append_cancel_left (h1.trans h3.symm))

/-! ### Padding -/

theorem pad16_length (d : List Byte) : (pad16 d).length = 16 * ((d.length + 15) / 16) := by
  simp only [pad16, List.length_append, List.length_replicate]; omega

@[simp] theorem pad16_nil : pad16 [] = [] := rfl

theorem pad16_eq_self {d : List Byte} (h : d.length % 16 = 0) : pad16 d = d := by
  simp [pad16, h]

/-- Padding a sequence pads its last partial block only. -/
theorem pad16_split (d : List Byte) : pad16 d = wholePart d ++ pad16 (restPart d) := by
  conv_lhs => rw [← wholePart_append_restPart d]
  simp only [pad16, List.append_assoc, List.length_append, wholePart_length, restPart_length]
  congr 4
  omega

/-! ### Blocks of a sequence -/

theorem toBlocks_append (m n : Nat) (d1 d2 : List Byte) (h : d1.length = 16 * m) :
    toBlocks (m + n) (d1 ++ d2) = toBlocks m d1 ++ toBlocks n d2 := by
  induction m generalizing d1 with
  | zero =>
    have : d1 = [] := by simpa using h
    simp [this, toBlocks]
  | succ m ih =>
    rw [Nat.succ_add, toBlocks, toBlocks, List.cons_append]
    have h16 : 16 ≤ d1.length := by omega
    rw [List.take_append_of_le_length h16, List.drop_append_of_le_length h16, ih _ (by simp [h]; omega)]

theorem blocksOf_append (d1 d2 : List Byte) (h : d1.length % 16 = 0) :
    blocksOf (d1 ++ d2) = blocksOf d1 ++ blocksOf d2 := by
  rw [blocksOf, blocksOf, blocksOf, ← toBlocks_append _ _ _ _ (by omega)]
  congr 1
  rw [List.length_append]
  omega

@[simp] theorem toBlocks_length (n : Nat) (d : List Byte) : (toBlocks n d).length = n := by
  induction n generalizing d with
  | zero => rfl
  | succ n ih => simp [toBlocks, ih]

theorem flatMap_toBlocks (n : Nat) (d : List Byte) (h : d.length = 16 * n) :
    (toBlocks n d).flatMap blockBytes = d := by
  induction n generalizing d with
  | zero => rw [List.eq_nil_of_length_eq_zero (by omega : d.length = 0)]; rfl
  | succ n ih =>
    rw [toBlocks, List.flatMap_cons, blockBytes_bytesBlock _ (by simp; omega), ih _ (by simp; omega),
      List.take_append_drop]

theorem blocksOf_flatMap (l : List Block) : blocksOf (l.flatMap blockBytes) = l := by
  induction l with
  | nil => rfl
  | cons b l ih =>
    rw [List.flatMap_cons, blocksOf_append _ _ (by simp), ih]
    have : blocksOf (blockBytes b) = [b] := by
      simp [blocksOf, toBlocks, List.take_of_length_le]
    rw [this, List.singleton_append]

/-! ### GHASH on whole blocks -/

/-- Folding a sequence whose first part is whole blocks is folding its parts in turn. -/
theorem engGhash_append (e : Engine) (y : Block) (d1 d2 : List Byte) (h : d1.length % 16 = 0) :
    engGhash e y (d1 ++ d2) = engGhash e (engGhash e y d1) d2 := by
  rw [engGhash, blocksOf_append _ _ h, List.foldl_append]
  rfl

@[simp] theorem engGhash_nil (e : Engine) (y : Block) : engGhash e y [] = y := rfl

/-! ### Counter mode on whole blocks -/

theorem xorBytes_length (a b : List Byte) : (xorBytes a b).length = min a.length b.length := by
  simp [xorBytes]

theorem xorBytes_append (a1 a2 b1 b2 : List Byte) (h : a1.length = b1.length) :
    xorBytes (a1 ++ a2) (b1 ++ b2) = xorBytes a1 b1 ++ xorBytes a2 b2 := List.zipWith_append h

theorem xorBytes_cancel (a b : List Byte) (h : a.length ≤ b.length) : xorBytes (xorBytes a b) b = a := by
  induction a generalizing b with
  | nil => simp [xorBytes]
  | cons x a ih =>
    cases b with
    | nil => simp at h
    | cons y b =>
      have h' : a.length ≤ b.length := by simpa using h
      simp only [xorBytes, List.zipWith_cons_cons] at ih ⊢
      rw [ih b h', BitVec.xor_assoc, BitVec.xor_self, BitVec.xor_zero]

theorem beBytes_xor (w a b : Nat) : beBytes w (a ^^^ b) = xorBytes (beBytes w a) (beBytes w b) := by
  induction w with
  | zero => rfl
  | succ w ih =>
    simp only [beBytes, ih, xorBytes, List.zipWith_cons_cons]
    congr 1
    apply BitVec.eq_of_toNat_eq
    rw [show (256 : Nat) ^ w = 2 ^ (8 * w) by rw [pow_mul]; norm_num]
    simp only [← Nat.shiftRight_eq_div_pow, Nat.shiftRight_xor_distrib, BitVec.toNat_ofNat, BitVec.toNat_xor,
      Nat.xor_mod_two_pow]

theorem blockBytes_xor (a b : Block) : blockBytes (a ^^^ b) = xorBytes (blockBytes a) (blockBytes b) := by
  rw [blockBytes, BitVec.toNat_xor, beBytes_xor]; rfl

@[simp] theorem keystream_length (e : Engine) (c : Block) (k : Nat) : (keystream e c k).length = 16 * k := by
  induction k with
  | zero => rfl
  | succ k ih =>
    simp only [keystream] at ih ⊢
    rw [List.range_succ, List.flatMap_append, List.length_append, ih]
    simp
    ring

theorem keystream_succ (e : Engine) (c : Block) (k : Nat) :
    keystream e c (k + 1) = blockBytes (engEnc e c) ++ keystream e (engInc e c) k := by
  simp only [keystream]
  rw [List.range_succ_eq_map, List.flatMap_cons, List.flatMap_map]
  rfl

theorem keystream_add (e : Engine) (c : Block) (k n : Nat) :
    keystream e c (k + n) = keystream e c k ++ keystream e ((engInc e)^[k] c) n := by
  induction k generalizing c with
  | zero => simp [keystream]
  | succ k ih =>
    rw [Nat.succ_add, keystream_succ, keystream_succ, ih, List.append_assoc]
    rfl

theorem ctrLoop_snd (e : Engine) (c : Block) (l : List Block) : (ctrLoop e c l).2 = (engInc e)^[l.length] c := by
  induction l generalizing c with
  | nil => rfl
  | cons b l ih => rw [ctrLoop]; exact ih _

theorem ctrLoop_fst (e : Engine) (c : Block) (l : List Block) :
    (ctrLoop e c l).1 = xorBytes (l.flatMap blockBytes) (keystream e c l.length) := by
  induction l generalizing c with
  | nil => rfl
  | cons b l ih =>
    rw [ctrLoop, List.flatMap_cons, List.length_cons, keystream_succ, xorBytes_append _ _ _ _ (by simp),
      ← blockBytes_xor, ← ih]

/-- Counter mode is the exclusive or of the whole blocks with the keystream. -/
theorem engCtr_fst (e : Engine) (c : Block) (d : List Byte) (h : d.length % 16 = 0) :
    (engCtr e c d).1 = xorBytes d (keystream e c (d.length / 16)) := by
  rw [engCtr, ctrLoop_fst, blocksOf, flatMap_toBlocks _ _ (by omega), toBlocks_length]

/-- The advanced counter: one increment for each block. -/
theorem engCtr_snd (e : Engine) (c : Block) (d : List Byte) :
    (engCtr e c d).2 = (engInc e)^[d.length / 16] c := by
  rw [engCtr, ctrLoop_snd, blocksOf, toBlocks_length]

theorem engCtr_length (e : Engine) (c : Block) (d : List Byte) (h : d.length % 16 = 0) :
    (engCtr e c d).1.length = d.length := by
  rw [engCtr_fst _ _ _ h, xorBytes_length, keystream_length]; omega

end Sys2Proof.Laws
end

