-- ==== Sys2Proof/Laws/State.lean ====
section
/-! SUPPORT. One lemma per field of State per named update: what each shared operation leaves in each register. -/

namespace Sys2Proof.Laws

open Sys2Proof.Machine

/-! ### respond: only HR -/
@[simp] theorem respond_y (s : State) (st : Status) (c : Cause) (out : List Byte) : (s.respond st c out).y = s.y := rfl
@[simp] theorem respond_adbits (s : State) (st : Status) (c : Cause) (out : List Byte) : (s.respond st c out).adbits = s.adbits := rfl
@[simp] theorem respond_ctlen (s : State) (st : Status) (c : Cause) (out : List Byte) : (s.respond st c out).ctlen = s.ctlen := rfl
@[simp] theorem respond_ctr (s : State) (st : Status) (c : Cause) (out : List Byte) : (s.respond st c out).ctr = s.ctr := rfl
@[simp] theorem respond_tm (s : State) (st : Status) (c : Cause) (out : List Byte) : (s.respond st c out).tm = s.tm := rfl
@[simp] theorem respond_pb (s : State) (st : Status) (c : Cause) (out : List Byte) : (s.respond st c out).pb = s.pb := rfl
@[simp] theorem respond_pblen (s : State) (st : Status) (c : Cause) (out : List Byte) : (s.respond st c out).pblen = s.pblen := rfl
@[simp] theorem respond_mode (s : State) (st : Status) (c : Cause) (out : List Byte) : (s.respond st c out).mode = s.mode := rfl
@[simp] theorem respond_phase (s : State) (st : Status) (c : Cause) (out : List Byte) : (s.respond st c out).phase = s.phase := rfl
@[simp] theorem respond_cause (s : State) (st : Status) (c : Cause) (out : List Byte) : (s.respond st c out).cause = s.cause := rfl
@[simp] theorem respond_nsize (s : State) (st : Status) (c : Cause) (out : List Byte) : (s.respond st c out).nsize = s.nsize := rfl
@[simp] theorem respond_engine (s : State) (st : Status) (c : Cause) (out : List Byte) : (s.respond st c out).engine = s.engine := rfl
@[simp] theorem respond_hc (s : State) (st : Status) (c : Cause) (out : List Byte) : (s.respond st c out).hc = s.hc := rfl
@[simp] theorem respond_resets (s : State) (st : Status) (c : Cause) (out : List Byte) : (s.respond st c out).resets = s.resets := rfl
@[simp] theorem respond_hr (s : State) (st : Status) (c : Cause) (out : List Byte) : (s.respond st c out).hr = s.hr ++ responseBytes st c out := rfl
@[simp] theorem respond_epPending (s : State) (st : Status) (c : Cause) (out : List Byte) : (s.respond st c out).epPending = s.epPending := rfl
@[simp] theorem respond_epLog (s : State) (st : Status) (c : Cause) (out : List Byte) : (s.respond st c out).epLog = s.epLog := rfl

/-! ### exchange: only the record of EP -/
@[simp] theorem exchange_y (s : State) (r : Instr) (a : List Byte) : (s.exchange r a).y = s.y := rfl
@[simp] theorem exchange_adbits (s : State) (r : Instr) (a : List Byte) : (s.exchange r a).adbits = s.adbits := rfl
@[simp] theorem exchange_ctlen (s : State) (r : Instr) (a : List Byte) : (s.exchange r a).ctlen = s.ctlen := rfl
@[simp] theorem exchange_ctr (s : State) (r : Instr) (a : List Byte) : (s.exchange r a).ctr = s.ctr := rfl
@[simp] theorem exchange_tm (s : State) (r : Instr) (a : List Byte) : (s.exchange r a).tm = s.tm := rfl
@[simp] theorem exchange_pb (s : State) (r : Instr) (a : List Byte) : (s.exchange r a).pb = s.pb := rfl
@[simp] theorem exchange_pblen (s : State) (r : Instr) (a : List Byte) : (s.exchange r a).pblen = s.pblen := rfl
@[simp] theorem exchange_mode (s : State) (r : Instr) (a : List Byte) : (s.exchange r a).mode = s.mode := rfl
@[simp] theorem exchange_phase (s : State) (r : Instr) (a : List Byte) : (s.exchange r a).phase = s.phase := rfl
@[simp] theorem exchange_cause (s : State) (r : Instr) (a : List Byte) : (s.exchange r a).cause = s.cause := rfl
@[simp] theorem exchange_nsize (s : State) (r : Instr) (a : List Byte) : (s.exchange r a).nsize = s.nsize := rfl
@[simp] theorem exchange_engine (s : State) (r : Instr) (a : List Byte) : (s.exchange r a).engine = s.engine := rfl
@[simp] theorem exchange_hc (s : State) (r : Instr) (a : List Byte) : (s.exchange r a).hc = s.hc := rfl
@[simp] theorem exchange_resets (s : State) (r : Instr) (a : List Byte) : (s.exchange r a).resets = s.resets := rfl
@[simp] theorem exchange_hr (s : State) (r : Instr) (a : List Byte) : (s.exchange r a).hr = s.hr := rfl
@[simp] theorem exchange_epPending (s : State) (r : Instr) (a : List Byte) : (s.exchange r a).epPending = s.epPending := rfl
@[simp] theorem exchange_epLog (s : State) (r : Instr) (a : List Byte) : (s.exchange r a).epLog = s.epLog ++ [⟨encode r, a⟩] := rfl

/-! ### setPending: PB and PBLEN -/
@[simp] theorem setPending_y (s : State) (d : List Byte) : (s.setPending d).y = s.y := rfl
@[simp] theorem setPending_adbits (s : State) (d : List Byte) : (s.setPending d).adbits = s.adbits := rfl
@[simp] theorem setPending_ctlen (s : State) (d : List Byte) : (s.setPending d).ctlen = s.ctlen := rfl
@[simp] theorem setPending_ctr (s : State) (d : List Byte) : (s.setPending d).ctr = s.ctr := rfl
@[simp] theorem setPending_tm (s : State) (d : List Byte) : (s.setPending d).tm = s.tm := rfl
@[simp] theorem setPending_pb (s : State) (d : List Byte) : (s.setPending d).pb = pendingCells d := rfl
@[simp] theorem setPending_pblen (s : State) (d : List Byte) : (s.setPending d).pblen = BitVec.ofNat 4 d.length := rfl
@[simp] theorem setPending_mode (s : State) (d : List Byte) : (s.setPending d).mode = s.mode := rfl
@[simp] theorem setPending_phase (s : State) (d : List Byte) : (s.setPending d).phase = s.phase := rfl
@[simp] theorem setPending_cause (s : State) (d : List Byte) : (s.setPending d).cause = s.cause := rfl
@[simp] theorem setPending_nsize (s : State) (d : List Byte) : (s.setPending d).nsize = s.nsize := rfl
@[simp] theorem setPending_engine (s : State) (d : List Byte) : (s.setPending d).engine = s.engine := rfl
@[simp] theorem setPending_hc (s : State) (d : List Byte) : (s.setPending d).hc = s.hc := rfl
@[simp] theorem setPending_resets (s : State) (d : List Byte) : (s.setPending d).resets = s.resets := rfl
@[simp] theorem setPending_hr (s : State) (d : List Byte) : (s.setPending d).hr = s.hr := rfl
@[simp] theorem setPending_epPending (s : State) (d : List Byte) : (s.setPending d).epPending = s.epPending := rfl
@[simp] theorem setPending_epLog (s : State) (d : List Byte) : (s.setPending d).epLog = s.epLog := rfl

/-! ### zeroise: the data registers and PHASE (10_state.md R36) -/
@[simp] theorem zeroise_y (s : State) : (s.zeroise).y = 0 := rfl
@[simp] theorem zeroise_adbits (s : State) : (s.zeroise).adbits = 0 := rfl
@[simp] theorem zeroise_ctlen (s : State) : (s.zeroise).ctlen = 0 := rfl
@[simp] theorem zeroise_ctr (s : State) : (s.zeroise).ctr = 0 := rfl
@[simp] theorem zeroise_tm (s : State) : (s.zeroise).tm = 0 := rfl
@[simp] theorem zeroise_pb (s : State) : (s.zeroise).pb = Vector.replicate 15 0 := rfl
@[simp] theorem zeroise_pblen (s : State) : (s.zeroise).pblen = 0 := rfl
@[simp] theorem zeroise_mode (s : State) : (s.zeroise).mode = .enc := rfl
@[simp] theorem zeroise_phase (s : State) : (s.zeroise).phase = .final := rfl
@[simp] theorem zeroise_cause (s : State) : (s.zeroise).cause = s.cause := rfl
@[simp] theorem zeroise_nsize (s : State) : (s.zeroise).nsize = s.nsize := rfl
@[simp] theorem zeroise_engine (s : State) : (s.zeroise).engine = s.engine := rfl
@[simp] theorem zeroise_hc (s : State) : (s.zeroise).hc = s.hc := rfl
@[simp] theorem zeroise_resets (s : State) : (s.zeroise).resets = s.resets := rfl
@[simp] theorem zeroise_hr (s : State) : (s.zeroise).hr = s.hr := rfl
@[simp] theorem zeroise_epPending (s : State) : (s.zeroise).epPending = s.epPending := rfl
@[simp] theorem zeroise_epLog (s : State) : (s.zeroise).epLog = s.epLog := rfl

/-! ### applyReset: every register but NSIZE (70_reset_and_hazards.md R200) -/
@[simp] theorem applyReset_y (s : State) (b : List Byte) (l : List ResetInput) : (s.applyReset b l).y = 0 := rfl
@[simp] theorem applyReset_adbits (s : State) (b : List Byte) (l : List ResetInput) : (s.applyReset b l).adbits = 0 := rfl
@[simp] theorem applyReset_ctlen (s : State) (b : List Byte) (l : List ResetInput) : (s.applyReset b l).ctlen = 0 := rfl
@[simp] theorem applyReset_ctr (s : State) (b : List Byte) (l : List ResetInput) : (s.applyReset b l).ctr = 0 := rfl
@[simp] theorem applyReset_tm (s : State) (b : List Byte) (l : List ResetInput) : (s.applyReset b l).tm = 0 := rfl
@[simp] theorem applyReset_pb (s : State) (b : List Byte) (l : List ResetInput) : (s.applyReset b l).pb = Vector.replicate 15 0 := rfl
@[simp] theorem applyReset_pblen (s : State) (b : List Byte) (l : List ResetInput) : (s.applyReset b l).pblen = 0 := rfl
@[simp] theorem applyReset_mode (s : State) (b : List Byte) (l : List ResetInput) : (s.applyReset b l).mode = .enc := rfl
@[simp] theorem applyReset_phase (s : State) (b : List Byte) (l : List ResetInput) : (s.applyReset b l).phase = .uninit := rfl
@[simp] theorem applyReset_cause (s : State) (b : List Byte) (l : List ResetInput) : (s.applyReset b l).cause = .noFault := rfl
@[simp] theorem applyReset_nsize (s : State) (b : List Byte) (l : List ResetInput) : (s.applyReset b l).nsize = s.nsize := rfl
@[simp] theorem applyReset_engine (s : State) (b : List Byte) (l : List ResetInput) : (s.applyReset b l).engine = s.engine := rfl
@[simp] theorem applyReset_hc (s : State) (b : List Byte) (l : List ResetInput) : (s.applyReset b l).hc = b := rfl
@[simp] theorem applyReset_resets (s : State) (b : List Byte) (l : List ResetInput) : (s.applyReset b l).resets = l := rfl
@[simp] theorem applyReset_hr (s : State) (b : List Byte) (l : List ResetInput) : (s.applyReset b l).hr = s.hr := rfl
@[simp] theorem applyReset_epPending (s : State) (b : List Byte) (l : List ResetInput) : (s.applyReset b l).epPending = [] := rfl
@[simp] theorem applyReset_epLog (s : State) (b : List Byte) (l : List ResetInput) : (s.applyReset b l).epLog = s.epLog := rfl

/-! ### tick: the reset input counted down, nothing else (70_reset_and_hazards.md R204; log 5) -/
@[simp] theorem tick_y (s : State) : s.tick.y = s.y := rfl
@[simp] theorem tick_adbits (s : State) : s.tick.adbits = s.adbits := rfl
@[simp] theorem tick_ctlen (s : State) : s.tick.ctlen = s.ctlen := rfl
@[simp] theorem tick_ctr (s : State) : s.tick.ctr = s.ctr := rfl
@[simp] theorem tick_tm (s : State) : s.tick.tm = s.tm := rfl
@[simp] theorem tick_pb (s : State) : s.tick.pb = s.pb := rfl
@[simp] theorem tick_pblen (s : State) : s.tick.pblen = s.pblen := rfl
@[simp] theorem tick_mode (s : State) : s.tick.mode = s.mode := rfl
@[simp] theorem tick_phase (s : State) : s.tick.phase = s.phase := rfl
@[simp] theorem tick_cause (s : State) : s.tick.cause = s.cause := rfl
@[simp] theorem tick_nsize (s : State) : s.tick.nsize = s.nsize := rfl
@[simp] theorem tick_engine (s : State) : s.tick.engine = s.engine := rfl
@[simp] theorem tick_hc (s : State) : s.tick.hc = s.hc := rfl
@[simp] theorem tick_hr (s : State) : s.tick.hr = s.hr := rfl
@[simp] theorem tick_epPending (s : State) : s.tick.epPending = s.epPending := rfl
@[simp] theorem tick_epLog (s : State) : s.tick.epLog = s.epLog := rfl
@[simp] theorem tick_resets (s : State) : s.tick.resets = countDown s.resets := rfl
@[simp] theorem tick_pending (s : State) : s.tick.pending = s.pending := rfl
@[simp] theorem countDown_nil : countDown [] = [] := rfl
@[simp] theorem countDown_cons (r : ResetInput) (l : List ResetInput) :
    countDown (r :: l) = { r with after := r.after - 1 } :: l := rfl

/-- With no reset to come nothing counts down. -/
theorem tick_of_resets_nil {s : State} (h : s.resets = []) : s.tick = s := by
  ext1 <;> simp [h]

/-- When the reset input is asserted: its count has run out. -/
theorem resetDue_iff (s : State) : s.resetDue = true ↔ ∃ b l, s.resets = ⟨0, b⟩ :: l := by
  unfold State.resetDue
  split
  · simp [*]
  · rename_i r l h
    obtain ⟨n, b⟩ := r
    simp [h]

/-! ### Engine requests: the answer, and the exchange recorded -/
@[simp] theorem askDerive_fst (n : List Byte) (s : State) : (askDerive n s).1 = engDerive s.engine n := rfl
@[simp] theorem askDerive_snd (n : List Byte) (s : State) :
    (askDerive n s).2 = s.exchange (.engDerive n) (blockBytes (engDerive s.engine n)) := rfl
@[simp] theorem askInc_fst (c : Block) (s : State) : (askInc c s).1 = engInc s.engine c := rfl
@[simp] theorem askInc_snd (c : Block) (s : State) :
    (askInc c s).2 = s.exchange (.engInc c) (blockBytes (engInc s.engine c)) := rfl
@[simp] theorem askCtr_fst (c : Block) (d : List Byte) (s : State) : (askCtr c d s).1 = engCtr s.engine c d := rfl
@[simp] theorem askCtr_snd (c : Block) (d : List Byte) (s : State) :
    (askCtr c d s).2 =
      s.exchange (.engCtr c d) ((engCtr s.engine c d).1 ++ blockBytes (engCtr s.engine c d).2) := rfl
@[simp] theorem askGhash_fst (y : Block) (d : List Byte) (s : State) :
    (askGhash y d s).1 = engGhash s.engine y d := rfl
@[simp] theorem askGhash_snd (y : Block) (d : List Byte) (s : State) :
    (askGhash y d s).2 = s.exchange (.engGhash y d) (blockBytes (engGhash s.engine y d)) := rfl
@[simp] theorem askEnc_fst (b : Block) (s : State) : (askEnc b s).1 = engEnc s.engine b := rfl
@[simp] theorem askEnc_snd (b : Block) (s : State) :
    (askEnc b s).2 = s.exchange (.engEnc b) (blockBytes (engEnc s.engine b)) := rfl

/-! ### foldInto: Y and one exchange -/
@[simp] theorem foldInto_y (s : State) (d : List Byte) : (foldInto d s).y = engGhash s.engine s.y d := rfl
@[simp] theorem foldInto_adbits (s : State) (d : List Byte) : (foldInto d s).adbits = s.adbits := rfl
@[simp] theorem foldInto_ctlen (s : State) (d : List Byte) : (foldInto d s).ctlen = s.ctlen := rfl
@[simp] theorem foldInto_ctr (s : State) (d : List Byte) : (foldInto d s).ctr = s.ctr := rfl
@[simp] theorem foldInto_tm (s : State) (d : List Byte) : (foldInto d s).tm = s.tm := rfl
@[simp] theorem foldInto_pb (s : State) (d : List Byte) : (foldInto d s).pb = s.pb := rfl
@[simp] theorem foldInto_pblen (s : State) (d : List Byte) : (foldInto d s).pblen = s.pblen := rfl
@[simp] theorem foldInto_mode (s : State) (d : List Byte) : (foldInto d s).mode = s.mode := rfl
@[simp] theorem foldInto_phase (s : State) (d : List Byte) : (foldInto d s).phase = s.phase := rfl
@[simp] theorem foldInto_cause (s : State) (d : List Byte) : (foldInto d s).cause = s.cause := rfl
@[simp] theorem foldInto_nsize (s : State) (d : List Byte) : (foldInto d s).nsize = s.nsize := rfl
@[simp] theorem foldInto_engine (s : State) (d : List Byte) : (foldInto d s).engine = s.engine := rfl
@[simp] theorem foldInto_hc (s : State) (d : List Byte) : (foldInto d s).hc = s.hc := rfl
@[simp] theorem foldInto_resets (s : State) (d : List Byte) : (foldInto d s).resets = s.resets := rfl
@[simp] theorem foldInto_hr (s : State) (d : List Byte) : (foldInto d s).hr = s.hr := rfl
@[simp] theorem foldInto_epPending (s : State) (d : List Byte) : (foldInto d s).epPending = s.epPending := rfl
@[simp] theorem foldInto_epLog (s : State) (d : List Byte) : (foldInto d s).epLog = s.epLog ++ [⟨encode (.engGhash s.y d), blockBytes (engGhash s.engine s.y d)⟩] := rfl

/-! ### ghashPad: Y and at most one exchange (40_engine_primitives.md R119) -/
@[simp] theorem ghashPad_y (s : State) (d : List Byte) :
    (ghashPad d s).y = engGhash s.engine s.y (pad16 d) := by
  unfold ghashPad
  split
  · rename_i h
    rw [List.eq_nil_of_length_eq_zero h]
    rfl
  · rfl
@[simp] theorem ghashPad_adbits (s : State) (d : List Byte) : (ghashPad d s).adbits = s.adbits := by
  unfold ghashPad; split <;> rfl
@[simp] theorem ghashPad_ctlen (s : State) (d : List Byte) : (ghashPad d s).ctlen = s.ctlen := by
  unfold ghashPad; split <;> rfl
@[simp] theorem ghashPad_ctr (s : State) (d : List Byte) : (ghashPad d s).ctr = s.ctr := by
  unfold ghashPad; split <;> rfl
@[simp] theorem ghashPad_tm (s : State) (d : List Byte) : (ghashPad d s).tm = s.tm := by
  unfold ghashPad; split <;> rfl
@[simp] theorem ghashPad_pb (s : State) (d : List Byte) : (ghashPad d s).pb = s.pb := by
  unfold ghashPad; split <;> rfl
@[simp] theorem ghashPad_pblen (s : State) (d : List Byte) : (ghashPad d s).pblen = s.pblen := by
  unfold ghashPad; split <;> rfl
@[simp] theorem ghashPad_mode (s : State) (d : List Byte) : (ghashPad d s).mode = s.mode := by
  unfold ghashPad; split <;> rfl
@[simp] theorem ghashPad_phase (s : State) (d : List Byte) : (ghashPad d s).phase = s.phase := by
  unfold ghashPad; split <;> rfl
@[simp] theorem ghashPad_cause (s : State) (d : List Byte) : (ghashPad d s).cause = s.cause := by
  unfold ghashPad; split <;> rfl
@[simp] theorem ghashPad_nsize (s : State) (d : List Byte) : (ghashPad d s).nsize = s.nsize := by
  unfold ghashPad; split <;> rfl
@[simp] theorem ghashPad_engine (s : State) (d : List Byte) : (ghashPad d s).engine = s.engine := by
  unfold ghashPad; split <;> rfl
@[simp] theorem ghashPad_hc (s : State) (d : List Byte) : (ghashPad d s).hc = s.hc := by
  unfold ghashPad; split <;> rfl
@[simp] theorem ghashPad_resets (s : State) (d : List Byte) : (ghashPad d s).resets = s.resets := by
  unfold ghashPad; split <;> rfl
@[simp] theorem ghashPad_hr (s : State) (d : List Byte) : (ghashPad d s).hr = s.hr := by
  unfold ghashPad; split <;> rfl
@[simp] theorem ghashPad_epPending (s : State) (d : List Byte) : (ghashPad d s).epPending = s.epPending := by
  unfold ghashPad; split <;> rfl

theorem ghashPad_epLog (s : State) (d : List Byte) :
    (ghashPad d s).epLog =
      s.epLog ++ (if d.length = 0 then []
        else [⟨encode (.engGhash s.y (pad16 d)), blockBytes (engGhash s.engine s.y (pad16 d))⟩]) := by
  unfold ghashPad
  split
  · simp
  · rfl

/-! ### The Pending Buffer -/

/-- What is stored is read back (10_state.md R28). -/
theorem pending_setPending (s : State) (d : List Byte) (h : d.length ≤ 15) : (s.setPending d).pending = d := by
  have h1 : (BitVec.ofNat 4 d.length).toNat = d.length := by
    simp only [BitVec.toNat_ofNat]; omega
  simp only [State.pending, setPending_pb, setPending_pblen, h1]
  show List.take d.length ((d ++ List.replicate 15 0).take 15) = d
  rw [List.take_take, Nat.min_eq_left h, List.take_left']
  rfl

theorem pending_length_le (s : State) : s.pending.length ≤ 15 := by
  have := s.pblen.isLt
  simp only [State.pending, List.length_take, Vector.length_toList]
  omega

theorem pending_length (s : State) : s.pending.length = s.pblen.toNat := by
  have := s.pblen.isLt
  simp only [State.pending, List.length_take, Vector.length_toList]
  omega

theorem pblen_eq_zero_iff (s : State) : s.pblen = 0 ↔ s.pending = [] := by
  rw [← List.length_eq_zero_iff, pending_length]
  constructor
  · intro h; rw [h]; rfl
  · intro h; exact BitVec.eq_of_toNat_eq h

/-- The pending bytes depend on PB and PBLEN alone. -/
theorem pending_congr {s t : State} (h1 : t.pb = s.pb) (h2 : t.pblen = s.pblen) : t.pending = s.pending := by
  rw [State.pending, State.pending, h1, h2]
@[simp] theorem pending_respond (s : State) (st : Status) (c : Cause) (out : List Byte) :
    (s.respond st c out).pending = s.pending := rfl
@[simp] theorem pending_exchange (s : State) (r : Instr) (a : List Byte) : (s.exchange r a).pending = s.pending := rfl
@[simp] theorem pending_foldInto (s : State) (d : List Byte) : (foldInto d s).pending = s.pending := rfl
@[simp] theorem pending_ghashPad (s : State) (d : List Byte) : (ghashPad d s).pending = s.pending :=
  pending_congr (ghashPad_pb s d) (ghashPad_pblen s d)

end Sys2Proof.Laws
end

