-- ==== Sys2Proof/Laws/Meanings.lean ====
section
/-! SUPPORT. One lemma for each shared operation and each effect that says everything it does, as a state written field by field. -/

namespace Sys2Proof.Laws

open Sys2Proof.Machine

/-! ### Faults and responses -/

theorem raiseFatal_eq (c : Cause) (s : State) : raiseFatal c s = .next (s.afterFatal c) := rfl

theorem answerFaulted_eq (s : State) : answerFaulted s = .next s.afterLatched := rfl

theorem unlessFaulted_faulted {s : State} (h : s.phase = .faulted) (k : Result) :
    unlessFaulted s k = .next s.afterLatched := by rw [unlessFaulted, if_pos h]; rfl

theorem unlessFaulted_not {s : State} (h : s.phase ≠ .faulted) (k : Result) : unlessFaulted s k = k := by
  rw [unlessFaulted, if_neg h]

theorem responseBytes_length (st : Status) (c : Cause) (out : List Byte) :
    (responseBytes st c out).length = 16 + out.length := by
  simp [responseBytes]; omega

/-! ### INIT_* -/

theorem pendingCells_nil : pendingCells [] = Vector.replicate 15 0 := by decide

/-- The effect of `Init(m)` after its check. -/
theorem openMessage_eq (m : Mode) (n a : List Byte) (s : State) : openMessage m n a s = s.afterInit m n a := by
  unfold openMessage State.afterInit
  ext1 <;> simp [pendingCells_nil]
  · intro h; simp [h]
  · rw [ghashPad_epLog]
    by_cases h : a = [] <;> simp [h, exchanges]

/-! ### NEXT -/

theorem overLimit_false {s : State} {d : List Byte} (h : s.ctlen.toNat + d.length ≤ Config.limit) :
    overLimit s d = false := by
  simp only [overLimit, decide_eq_false_iff_not]; omega

theorem overLimit_true {s : State} {d : List Byte} (h : Config.limit < s.ctlen.toNat + d.length) :
    overLimit s d = true := by
  simp only [overLimit, decide_eq_true_eq]; omega

/-- An accepted NEXT is `takeFragment`. -/
theorem execNext_accepted {s : State} {d : List Byte} (hp : s.phase = .active)
    (h : s.ctlen.toNat + d.length ≤ Config.limit) : execNext d s = .next (takeFragment d s) := by
  rw [execNext, unlessFaulted_not (by simp [hp])]
  simp [hp, overLimit_false h]

theorem add_ofNat (x : Word64) (k : Nat) : x + BitVec.ofNat 64 k = BitVec.ofNat 64 (x.toNat + k) := by
  apply BitVec.eq_of_toNat_eq
  simp

/-- The three forms of an accepted NEXT that completes a block, and the one that does not. -/
theorem takeFragment_absorb {s : State} {d : List Byte} (h : (s.pending ++ d).length < 16) :
    takeFragment d s =
      { s with
        ctlen := BitVec.ofNat 64 (s.ctlen.toNat + d.length)
        pb := pendingCells (s.pending ++ d)
        pblen := BitVec.ofNat 4 (s.pending ++ d).length
        hr := s.hr ++ responseBytes .ok .noFault [] } := by
  have hw : (wholePart (s.pending ++ d)).length = 0 := by rw [wholePart_length]; omega
  have hr : restPart (s.pending ++ d) = s.pending ++ d := by
    have := wholePart_append_restPart (s.pending ++ d)
    rwa [List.eq_nil_of_length_eq_zero hw, List.nil_append] at this
  unfold takeFragment
  simp only [processHead, hw, if_true, hr, ← add_ofNat]
  rfl

theorem takeFragment_enc {s : State} {d : List Byte} (hm : s.mode = .enc) (h : 16 ≤ (s.pending ++ d).length) :
    takeFragment d s =
      (let head := wholePart (s.pending ++ d)
       let rest := restPart (s.pending ++ d)
       let o := engCtr s.engine s.ctr head
       { s with
        ctlen := BitVec.ofNat 64 (s.ctlen.toNat + d.length)
        ctr := o.2
        y := engGhash s.engine s.y o.1
        pb := pendingCells rest
        pblen := BitVec.ofNat 4 rest.length
        hr := s.hr ++ responseBytes .ok .noFault o.1
        epLog := s.epLog ++ exchanges
          [(.engCtr s.ctr head, o.1 ++ blockBytes o.2),
           (.engGhash s.y o.1, blockBytes (engGhash s.engine s.y o.1))] }) := by
  have hw : (wholePart (s.pending ++ d)).length ≠ 0 := by rw [wholePart_length]; omega
  unfold takeFragment
  simp only [processHead, hw, if_false, hm, ← add_ofNat]
  ext1 <;> simp [exchanges]

theorem takeFragment_dec {s : State} {d : List Byte} (hm : s.mode = .dec) (h : 16 ≤ (s.pending ++ d).length) :
    takeFragment d s =
      (let head := wholePart (s.pending ++ d)
       let rest := restPart (s.pending ++ d)
       let o := engCtr s.engine s.ctr head
       { s with
        ctlen := BitVec.ofNat 64 (s.ctlen.toNat + d.length)
        ctr := o.2
        y := engGhash s.engine s.y head
        pb := pendingCells rest
        pblen := BitVec.ofNat 4 rest.length
        hr := s.hr ++ responseBytes .ok .noFault o.1
        epLog := s.epLog ++ exchanges
          [(.engGhash s.y head, blockBytes (engGhash s.engine s.y head)),
           (.engCtr s.ctr head, o.1 ++ blockBytes o.2)] }) := by
  have hw : (wholePart (s.pending ++ d)).length ≠ 0 := by rw [wholePart_length]; omega
  unfold takeFragment
  simp only [processHead, hw, if_false, hm, ← add_ofNat]
  ext1 <;> simp [exchanges]

theorem takeFragment_vfy {s : State} {d : List Byte} (hm : s.mode = .vfy) (h : 16 ≤ (s.pending ++ d).length) :
    takeFragment d s =
      (let head := wholePart (s.pending ++ d)
       let rest := restPart (s.pending ++ d)
       { s with
        ctlen := BitVec.ofNat 64 (s.ctlen.toNat + d.length)
        y := engGhash s.engine s.y head
        pb := pendingCells rest
        pblen := BitVec.ofNat 4 rest.length
        hr := s.hr ++ responseBytes .ok .noFault []
        epLog := s.epLog ++ exchanges
          [(.engGhash s.y head, blockBytes (engGhash s.engine s.y head))] }) := by
  have hw : (wholePart (s.pending ++ d)).length ≠ 0 := by rw [wholePart_length]; omega
  unfold takeFragment
  simp only [processHead, hw, if_false, hm, ← add_ofNat]
  ext1 <;> simp [exchanges]

/-! ### FIN_ENC and FIN_DEC -/

theorem xorBytes_take (a b : List Byte) : xorBytes a (b.take a.length) = xorBytes a b := by
  induction a generalizing b with
  | nil => rfl
  | cons x a ih =>
    cases b with
    | nil => rfl
    | cons y b =>
      simp only [xorBytes, List.length_cons, List.take_succ_cons, List.zipWith_cons_cons] at ih ⊢
      rw [ih]

/-- The comparison of R154 is equality. -/
theorem foldl_or_eq_zero (l : List Byte) (acc : Byte) :
    l.foldl (· ||| ·) acc = 0 ↔ acc = 0 ∧ ∀ x ∈ l, x = 0 := by
  induction l generalizing acc with
  | nil => simp
  | cons x l ih =>
    rw [List.foldl_cons, ih]
    simp [and_assoc]

theorem differenceBits_eq_zero (a b : List Byte) (h : a.length = b.length) : differenceBits a b = 0 ↔ a = b := by
  rw [differenceBits, foldl_or_eq_zero]
  induction a generalizing b with
  | nil => simp [List.eq_nil_of_length_eq_zero h.symm]
  | cons x a ih =>
    cases b with
    | nil => simp at h
    | cons y b =>
      have := ih b (by simpa using h)
      simp only [true_and] at this ⊢
      simp only [List.zipWith_cons_cons, List.mem_cons, forall_eq_or_imp, this, List.cons.injEq]
      exact and_congr_left fun _ => BitVec.xor_eq_zero_iff

/-- The effect of an accepted FIN_ENC with bytes pending. -/
theorem closeSeal_tail {s : State} (h : s.pblen ≠ 0) :
    closeSeal s =
      (let ks := engEnc s.engine s.ctr
       let tail := xorBytes s.pending (blockBytes ks)
       let y₁ := engGhash s.engine s.y (pad16 tail)
       let l := lengthBlock s.adbits s.ctlen
       s.afterClose (responseBytes .ok .noFault (tail ++ blockBytes (engGhash s.engine y₁ l ^^^ s.tm)))
        [(.engEnc s.ctr, blockBytes ks), (.engGhash s.y (pad16 tail), blockBytes y₁),
         (.engGhash y₁ l, blockBytes (engGhash s.engine y₁ l))]) := by
  have hp : s.pending ≠ [] := fun e => h ((pblen_eq_zero_iff s).2 e)
  have ht : (xorBytes s.pending (blockBytes (engEnc s.engine s.ctr))).length ≠ 0 := by
    have := List.length_pos_of_ne_nil hp
    rw [xorBytes_length, blockBytes_length]; omega
  unfold closeSeal sealTail finalTag State.afterClose
  simp only [h, if_false, tailCrypt, ghashPad, askEnc_fst, askEnc_snd, ht]
  ext1 <;> simp [exchanges]

/-- The effect of an accepted FIN_ENC with nothing pending. -/
theorem closeSeal_noTail {s : State} (h : s.pblen = 0) :
    closeSeal s =
      (let l := lengthBlock s.adbits s.ctlen
       s.afterClose (responseBytes .ok .noFault (blockBytes (engGhash s.engine s.y l ^^^ s.tm)))
        [(.engGhash s.y l, blockBytes (engGhash s.engine s.y l))]) := by
  unfold closeSeal sealTail finalTag State.afterClose
  simp only [h, if_true]
  ext1 <;> simp [exchanges]

/-- The requests of FIN_DEC. -/
def openAsked (s : State) : List (Instr × List Byte) :=
  let ks := engEnc s.engine s.ctr
  let y₁ := engGhash s.engine s.y (pad16 s.pending)
  let l := lengthBlock s.adbits s.ctlen
  (if s.pblen = 0 then [] else [(.engGhash s.y (pad16 s.pending), blockBytes y₁)]) ++
    (if s.pblen ≠ 0 ∧ s.mode = .dec then [(.engEnc s.ctr, blockBytes ks)] else []) ++
    [(.engGhash y₁ l, blockBytes (engGhash s.engine y₁ l))]

/-- The tag FIN_DEC expects. -/
def expectedTag (s : State) : Block :=
  engGhash s.engine (engGhash s.engine s.y (pad16 s.pending)) (lengthBlock s.adbits s.ctlen) ^^^ s.tm

/-- The tail FIN_DEC sends where the tag matches. -/
def openedTail (s : State) : List Byte :=
  if s.mode = .dec then xorBytes s.pending (blockBytes (engEnc s.engine s.ctr)) else []

/-- What the tail's request leaves, in each case of R153. -/
theorem openTail_cases (s : State) :
    (s.pblen = 0 ∧ s.pending = [] ∧ openTail (ghashPad s.pending s) = ([], s)) ∨
    (s.pblen ≠ 0 ∧ s.pending ≠ [] ∧ s.mode ≠ .dec ∧
      openTail (ghashPad s.pending s) = ([], foldInto (pad16 s.pending) s)) ∨
    (s.pblen ≠ 0 ∧ s.pending ≠ [] ∧ s.mode = .dec ∧
      openTail (ghashPad s.pending s) = tailCrypt (foldInto (pad16 s.pending) s)) := by
  by_cases hz : s.pblen = 0
  · have hp : s.pending = [] := (pblen_eq_zero_iff s).1 hz
    refine .inl ⟨hz, hp, ?_⟩
    have e : ghashPad s.pending s = s := by rw [hp]; rfl
    rw [e, openTail, if_neg (by simp [hz])]
  · have hp : s.pending ≠ [] := fun e => hz ((pblen_eq_zero_iff s).2 e)
    have e : ghashPad s.pending s = foldInto (pad16 s.pending) s := by
      rw [ghashPad, if_neg (by simpa using hp)]
    rw [e]
    by_cases hm : s.mode = .dec
    · refine .inr (.inr ⟨hz, hp, hm, ?_⟩)
      rw [openTail, if_pos ⟨hz, hm⟩]
    · refine .inr (.inl ⟨hz, hp, hm, ?_⟩)
      rw [openTail, if_neg (by rw [foldInto_mode]; exact fun h => hm h.2)]

theorem openTail_fst (s : State) : (openTail (ghashPad s.pending s)).1 = openedTail s := by
  rcases openTail_cases s with ⟨_, hp, e⟩ | ⟨_, _, hm, e⟩ | ⟨_, _, hm, e⟩ <;> rw [e, openedTail]
  · simp [hp, xorBytes]
  · simp [hm]
  · simp [hm, tailCrypt]

theorem finalTag_openTail_fst (s : State) :
    (finalTag (openTail (ghashPad s.pending s)).2).1 = expectedTag s := by
  rcases openTail_cases s with ⟨_, hp, e⟩ | ⟨_, _, hm, e⟩ | ⟨_, _, hm, e⟩ <;>
    rw [e, expectedTag] <;> simp [finalTag, tailCrypt]
  simp [hp]

theorem closeOpen_state (s : State) (st : Status) (out : List Byte) :
    (finalTag (openTail (ghashPad s.pending s)).2).2.zeroise.respond st .noFault out =
      s.afterClose (responseBytes st .noFault out) (openAsked s) := by
  unfold openAsked
  rcases openTail_cases s with ⟨hz, hp, e⟩ | ⟨hz, _, hm, e⟩ | ⟨hz, _, hm, e⟩ <;> rw [e, State.afterClose]
  · ext1 <;> simp [finalTag, exchanges, hz, hp]
  · simp only [hz, hm, ne_eq, not_false_eq_true, and_false, if_false]
    ext1 <;> simp [finalTag, exchanges]
  · simp only [hz, hm, ne_eq, not_false_eq_true, and_self, if_true, if_false]
    ext1 <;> simp [finalTag, tailCrypt, exchanges]

/-- The effect of an accepted FIN_DEC. -/
theorem closeOpen_eq (tag : List Byte) (s : State) (ht : tag.length = 16) :
    closeOpen tag s =
      s.afterClose
        (if tag = blockBytes (expectedTag s) then responseBytes .ok .noFault (openedTail s)
         else responseBytes .authFail .noFault [])
        (openAsked s) := by
  have hc : ctEqual (blockBytes (expectedTag s)) tag = true ↔ tag = blockBytes (expectedTag s) := by
    rw [ctEqual, beq_iff_eq, differenceBits_eq_zero _ _ (by simp [ht])]
    exact eq_comm
  unfold closeOpen
  simp only [finalTag_openTail_fst, openTail_fst, closeOpen_state, hc]
  split <;> rfl

end Sys2Proof.Laws
end

