-- ==== Sys2Proof/Laws/Message.lean ====
section
/-! SUPPORT. What an accepted NEXT leaves in each register, in one form for the three modes, and lemmas about the keystream of a message. -/

namespace Sys2Proof.Laws

open Sys2Proof.Machine

/-! ### An accepted NEXT, register by register -/

/-- The whole blocks an accepted NEXT processes. -/
def nextHead (s : State) (d : List Byte) : List Byte := wholePart (s.pending ++ d)

/-- The output of an accepted NEXT. -/
def nextOut (s : State) (d : List Byte) : List Byte :=
  if s.mode = .vfy then [] else (engCtr s.engine s.ctr (nextHead s d)).1

/-- The ciphertext an accepted NEXT folds. -/
def nextFolded (s : State) (d : List Byte) : List Byte :=
  if s.mode = .enc then (engCtr s.engine s.ctr (nextHead s d)).1 else nextHead s d

theorem nextHead_length_mod (s : State) (d : List Byte) : (nextHead s d).length % 16 = 0 := by
  rw [nextHead, wholePart_length]; omega

/-- Everything an accepted NEXT does, but for the requests it makes. -/
theorem takeFragment_spec (s : State) (d : List Byte) :
    (takeFragment d s).y = engGhash s.engine s.y (nextFolded s d) ∧
    (takeFragment d s).ctr = (if s.mode = .vfy then s.ctr else (engCtr s.engine s.ctr (nextHead s d)).2) ∧
    (takeFragment d s).ctlen = BitVec.ofNat 64 (s.ctlen.toNat + d.length) ∧
    (takeFragment d s).pb = pendingCells (restPart (s.pending ++ d)) ∧
    (takeFragment d s).pblen = BitVec.ofNat 4 (restPart (s.pending ++ d)).length ∧
    (takeFragment d s).hr = s.hr ++ responseBytes .ok .noFault (nextOut s d) ∧
    (takeFragment d s).adbits = s.adbits ∧ (takeFragment d s).tm = s.tm ∧ (takeFragment d s).mode = s.mode ∧
    (takeFragment d s).phase = s.phase ∧ (takeFragment d s).cause = s.cause ∧
    SameSurroundings s (takeFragment d s) := by
  unfold SameSurroundings nextFolded nextOut nextHead
  by_cases h : 16 ≤ (s.pending ++ d).length
  · cases hm : s.mode with
    | enc => rw [takeFragment_enc hm h]; simp [hm]
    | dec => rw [takeFragment_dec hm h]; simp [hm]
    | vfy => rw [takeFragment_vfy hm h]; simp [hm]
  · have h' : (s.pending ++ d).length < 16 := by omega
    have hw : wholePart (s.pending ++ d) = [] := by
      apply List.eq_nil_of_length_eq_zero
      rw [wholePart_length]; omega
    have hr : restPart (s.pending ++ d) = s.pending ++ d := by
      have := wholePart_append_restPart (s.pending ++ d)
      rwa [hw, List.nil_append] at this
    rw [takeFragment_absorb h', hw, hr]
    have e : engCtr s.engine s.ctr [] = ([], s.ctr) := rfl
    cases s.mode <;> simp [e]

theorem takeFragment_pending (s : State) (d : List Byte) :
    (takeFragment d s).pending = restPart (s.pending ++ d) := by
  obtain ⟨-, -, -, hpb, hlen, -⟩ := takeFragment_spec s d
  have h15 : (restPart (s.pending ++ d)).length ≤ 15 := by rw [restPart_length]; omega
  rw [← pending_setPending s _ h15]
  exact pending_congr hpb hlen

/-! ### The keystream of a message -/

theorem iterate_succ_add (e : Engine) (k : Nat) (c : Block) :
    (engInc e)^[1 + k] c = (engInc e)^[k] (engInc e c) := by
  rw [Nat.add_comm, Function.iterate_succ_apply]

/-- Counter mode after `k` whole blocks continues the keystream. -/
theorem xor_keystream_append (e : Engine) (c : Block) (x d : List Byte) (hx : x.length % 16 = 0)
    (hd : d.length % 16 = 0) :
    xorBytes (x ++ d) (keystream e c ((x ++ d).length / 16)) =
      xorBytes x (keystream e c (x.length / 16)) ++ (engCtr e ((engInc e)^[x.length / 16] c) d).1 := by
  have hl : (x ++ d).length / 16 = x.length / 16 + d.length / 16 := by
    rw [List.length_append]; omega
  rw [hl, keystream_add, xorBytes_append _ _ _ _ (by rw [keystream_length]; omega), engCtr_fst _ _ _ hd]

/-- The one-shot ciphertext: the whole blocks, then the tail under one more keystream block. -/
theorem gcmCipher_split (e : Engine) (n p : List Byte) :
    gcmCipher e n p =
      xorBytes (wholePart p) (keystream e (engInc e (initialCounter e n)) (p.length / 16)) ++
        xorBytes (restPart p) (blockBytes (engEnc e ((engInc e)^[1 + p.length / 16] (initialCounter e n)))) := by
  rw [gcmCipher, xorBytes_take, iterate_succ_add]
  by_cases h : p.length % 16 = 0
  · have hl : (p.length + 15) / 16 = p.length / 16 := by omega
    rw [hl, wholePart_eq_self h, restPart_eq_nil h]
    simp [xorBytes]
  · have hl : (p.length + 15) / 16 = p.length / 16 + 1 := by omega
    have hk : keystream e ((engInc e)^[p.length / 16] (engInc e (initialCounter e n))) 1 =
        blockBytes (engEnc e ((engInc e)^[p.length / 16] (engInc e (initialCounter e n)))) := by simp [keystream]
    rw [hl, keystream_add, hk, ← xorBytes_append _ _ _ _ (by simp), wholePart_append_restPart]

@[simp] theorem gcmCipher_length (e : Engine) (n p : List Byte) : (gcmCipher e n p).length = p.length := by
  rw [gcmCipher_split, List.length_append, xorBytes_length, xorBytes_length]
  simp
  omega

theorem gcmCipher_take_whole (e : Engine) (n p : List Byte) :
    (gcmCipher e n p).take (16 * (p.length / 16)) =
      xorBytes (wholePart p) (keystream e (engInc e (initialCounter e n)) (p.length / 16)) := by
  rw [gcmCipher_split]
  exact List.take_left' (by rw [xorBytes_length, wholePart_length, keystream_length]; omega)

/-- Applying the one-shot keystream twice gives the bytes back. -/
theorem gcmCipher_gcmCipher (e : Engine) (n p : List Byte) : gcmCipher e n (gcmCipher e n p) = p := by
  conv_lhs => rw [gcmCipher, gcmCipher_length]
  rw [gcmCipher]
  exact xorBytes_cancel _ _ (by simp; omega)

/-! ### A message in progress -/

/-- INIT_* opens a message that has taken nothing. -/
theorem afterInit_inMessage (s : State) (m : Mode) (n a : List Byte) (hn : n.length = s.nsize.toNat)
    (ha : a.length < 2 ^ 61) : (s.afterInit m n a).InMessage n a [] where
  nonce_length := hn
  ad_length := ha
  within := Nat.zero_le _
  tm := rfl
  adbits := by simp only [State.afterInit, BitVec.toNat_ofNat]; omega
  ctlen := rfl
  pending := rfl
  ctr := by
    show engInc s.engine _ = _
    split <;> rfl
  y := by
    show (if a.length = 0 then 0 else engGhash s.engine 0 (pad16 a)) = _
    have hc : cipherOf (s.afterInit m n a).mode (s.afterInit m n a).engine n (wholePart []) = [] := by
      unfold cipherOf; split <;> rfl
    rw [hc]
    split
    · rename_i h; rw [List.eq_nil_of_length_eq_zero h]; rfl
    · rfl

/-- An accepted NEXT leaves the message with the fragment's bytes taken too. -/
theorem takeFragment_inMessage {s : State} {n a x : List Byte} (d : List Byte) (h : s.InMessage n a x)
    (hl : x.length + d.length ≤ Config.limit) : (takeFragment d s).InMessage n a (x ++ d) := by
  obtain ⟨hy, hctr, hct, -, -, -, had, htm, hm, -, -, hns, hen, -⟩ := takeFragment_spec s d
  have hlim : Config.limit = 68719476704 := rfl
  have hwx : (wholePart x).length % 16 = 0 := by rw [wholePart_length]; omega
  have hwl : (wholePart x).length / 16 = x.length / 16 := by rw [wholePart_length]; omega
  have hhead : nextHead s d = wholePart (restPart x ++ d) := by rw [nextHead, h.pending]
  have hwh : (nextHead s d).length / 16 = (x ++ d).length / 16 - x.length / 16 := by
    rw [hhead, wholePart_length, List.length_append, restPart_length, List.length_append]; omega
  have hge : x.length / 16 ≤ (x ++ d).length / 16 := by rw [List.length_append]; omega
  have hwxd : wholePart (x ++ d) = wholePart x ++ nextHead s d := by rw [hhead, wholePart_append]
  refine ⟨by rw [hns]; exact h.nonce_length, h.ad_length, by rw [List.length_append]; exact hl,
    by rw [htm, hen]; exact h.tm, by rw [had]; exact h.adbits, ?_, ?_, ?_, ?_⟩
  · rw [hct, h.ctlen, List.length_append, BitVec.toNat_ofNat]
    omega
  · rw [takeFragment_pending, h.pending, ← restPart_append]
  · rw [hctr, hm, hen, h.ctr]
    split
    · rfl
    · rw [engCtr_snd, hwh, ← Function.iterate_add_apply]
      have e : (x ++ d).length / 16 - x.length / 16 + (1 + x.length / 16) = 1 + (x ++ d).length / 16 := by omega
      rw [e]
  · rw [hy, hm, hen, h.y]
    have key : cipherOf s.mode s.engine n (wholePart (x ++ d)) =
        cipherOf s.mode s.engine n (wholePart x) ++ nextFolded s d := by
      unfold cipherOf nextFolded
      split
      · rename_i he
        rw [hwxd, xor_keystream_append _ _ _ _ hwx (nextHead_length_mod s d), h.ctr, if_neg (by simp [he]),
          iterate_succ_add, hwl]
      · exact hwxd
    have hmod : (cipherOf s.mode s.engine n (wholePart x)).length % 16 = 0 := by
      unfold cipherOf
      split
      · rw [xorBytes_length, keystream_length]; omega
      · exact hwx
    rw [key, ← engGhash_append _ _ _ _ hmod]

end Sys2Proof.Laws
end

