-- ==== Sys2Proof/Laws/Commands.lean ====
section
/-! SUPPORT. What the commands answer, by the checks they pass: the inversion lemma `exec_accepted`, and the frame of the engine requests. -/

namespace Sys2Proof.Laws

open Sys2Proof.Machine

/-- An accepted INIT_*. -/
theorem initWith_accepted {m : Mode} {n a : List Byte} {s : State} (h : s.phase ≠ .faulted)
    (hn : n.length = s.nsize.toNat) : initWith m n a s = .next (s.afterInit m n a) := by
  rw [initWith, unlessFaulted_not h, if_pos (by simpa [nonceLengthOk] using hn), openMessage_eq]

/-- INIT_* with a nonce of the wrong length. -/
theorem initWith_badNonce {m : Mode} {n a : List Byte} {s : State} (h : s.phase ≠ .faulted)
    (hn : n.length ≠ s.nsize.toNat) : initWith m n a s = .next (s.afterFatal .badNonceLen) := by
  rw [initWith, unlessFaulted_not h, if_neg (by simpa [nonceLengthOk] using hn)]; rfl

/-- An accepted FIN_ENC. -/
theorem execFinEnc_accepted {s : State} (hp : s.phase = .active) (hm : s.mode = .enc) :
    execFinEnc s = .next (closeSeal s) := by
  rw [execFinEnc, unlessFaulted_not (by simp [hp]), if_neg (by simp [hp]), if_neg (by simp [hm])]

/-- An accepted FIN_DEC. -/
theorem execFinDec_accepted {s : State} {tag : List Byte} (hp : s.phase = .active) (hm : s.mode ≠ .enc)
    (ht : tag.length = 16) : execFinDec tag s = .next (closeOpen tag s) := by
  rw [execFinDec, unlessFaulted_not (by simp [hp]), if_neg (by simp [hp]), if_neg hm,
    if_neg (by simp [ht, Config.tagSize])]

/-- No meaning ends in a fault or a refusal. -/
theorem exec_answers_next (i : Instr) (s : State) : ∃ t, exec i s = .next t := by
  cases i <;> simp only [exec, execTagsize, execInitEnc, execInitDec, execInitVfy, execNext, execFinEnc, execFinDec,
    initWith, execEngDerive, execEngInc, execEngCtr, execEngGhash, execEngEnc, unlessFaulted, answerFaulted,
    raiseFatal] <;> (try split_ifs) <;> exact ⟨_, rfl⟩

/-- An engine request changes nothing but the record of EP. -/
theorem engineRequest_frame (s t : State) (i : Instr) (hc : i.channel = .ep) (h : exec i s = .next t) :
    ∃ l, t = { s with epLog := l } := by
  cases i <;> simp [Instr.channel] at hc <;> cases h <;> exact ⟨_, rfl⟩

/-- Everything a command does once none of its checks fails (60_exceptions.md R178). -/
theorem exec_accepted (s : State) (i : Instr) (hc : i.channel = .hc) (h : s.phase ≠ .faulted)
    (hf : firstFailing i s = none) :
    (i = .tagsize ∧ exec i s = .next (s.respond .ok .noFault [16])) ∨
    (∃ m n a,
      (i = .initEnc n a ∧ m = .enc ∨ i = .initDec n a ∧ m = .dec ∨ i = .initVfy n a ∧ m = .vfy) ∧
        n.length = s.nsize.toNat ∧ exec i s = .next (s.afterInit m n a)) ∨
    (∃ d, i = .next d ∧ s.phase = .active ∧ s.ctlen.toNat + d.length ≤ Config.limit ∧
      exec i s = .next (takeFragment d s)) ∨
    (i = .finEnc ∧ s.phase = .active ∧ s.mode = .enc ∧ exec i s = .next (closeSeal s)) ∨
    (∃ tag, i = .finDec tag ∧ s.phase = .active ∧ s.mode ≠ .enc ∧ tag.length = 16 ∧
      exec i s = .next (closeOpen tag s)) := by
  have bad : ∀ n : List Byte, (if n.length ≠ s.nsize.toNat then some Cause.badNonceLen else none) = none →
      n.length = s.nsize.toNat := fun n hn => by
    by_contra e; rw [if_pos e] at hn; cases hn
  cases i with
  | tagsize => exact .inl ⟨rfl, unlessFaulted_not h _⟩
  | initEnc n a =>
    exact .inr (.inl ⟨.enc, n, a, .inl ⟨rfl, rfl⟩, bad n hf, initWith_accepted h (bad n hf)⟩)
  | initDec n a =>
    exact .inr (.inl ⟨.dec, n, a, .inr (.inl ⟨rfl, rfl⟩), bad n hf, initWith_accepted h (bad n hf)⟩)
  | initVfy n a =>
    exact .inr (.inl ⟨.vfy, n, a, .inr (.inr ⟨rfl, rfl⟩), bad n hf, initWith_accepted h (bad n hf)⟩)
  | next d =>
    simp only [firstFailing] at hf
    split at hf
    · cases hf
    · split at hf
      · cases hf
      · rename_i h1 h2
        have h1 : s.phase = .active := not_not.1 h1
        exact .inr (.inr (.inl ⟨d, rfl, h1, not_lt.1 h2, execNext_accepted h1 (not_lt.1 h2)⟩))
  | finEnc =>
    simp only [firstFailing] at hf
    split at hf
    · cases hf
    · split at hf
      · cases hf
      · rename_i h1 h2
        exact .inr (.inr (.inr (.inl
          ⟨rfl, not_not.1 h1, not_not.1 h2, execFinEnc_accepted (not_not.1 h1) (not_not.1 h2)⟩)))
  | finDec tag =>
    simp only [firstFailing] at hf
    split at hf
    · cases hf
    · split at hf
      · cases hf
      · split at hf
        · cases hf
        · rename_i h1 h2 h3
          exact .inr (.inr (.inr (.inr
            ⟨tag, rfl, not_not.1 h1, h2, not_not.1 h3, execFinDec_accepted (not_not.1 h1) h2 (not_not.1 h3)⟩)))
  | engDerive n => cases hc
  | engInc c => cases hc
  | engCtr c d => cases hc
  | engGhash y d => cases hc
  | engEnc b => cases hc

/-- The length of padded data, for data shorter than 2^63 bytes. -/
theorem pad16_bounds {d : List Byte} (h : d ≠ []) (hl : d.length < 2 ^ 63) :
    16 ≤ (pad16 d).length ∧ (pad16 d).length % 16 = 0 ∧ 16 + (pad16 d).length < 2 ^ 64 := by
  have : 0 < d.length := List.length_pos_iff.2 h
  rw [pad16_length]; omega

end Sys2Proof.Laws
end

