-- ==== Sys2Proof/Laws/Decode.lean ====
section
/-! SUPPORT. Lemmas about headers, framing and the decoder on an encoded instruction. -/

namespace Sys2Proof.Laws

/-! ### Header fields -/

theorem toNat_append_add {m n : Nat} (x : BitVec m) (y : BitVec n) :
    (x ++ y).toNat = x.toNat * 2 ^ n + y.toNat := by
  rw [BitVec.toNat_append, ← Nat.shiftLeft_add_eq_or_of_lt y.isLt, Nat.shiftLeft_eq]

theorem cmdHeader_toNat (op : Byte) (n : BitVec 16) (d : Word64) :
    (cmdHeader op n d).toNat = op.toNat * 2 ^ 120 + n.toNat * 2 ^ 96 + d.toNat := by
  simp only [cmdHeader, toNat_append_add]
  have h8 : (0 : BitVec 8).toNat = 0 := rfl
  have h32 : (0 : BitVec 32).toNat = 0 := rfl
  rw [h8, h32]
  ring

theorem engHeader_toNat (op : Byte) (p : Word64) :
    (engHeader op p).toNat = op.toNat * 2 ^ 120 + p.toNat := by
  simp only [engHeader, toNat_append_add]
  have h56 : (0 : BitVec 56).toNat = 0 := rfl
  rw [h56]
  ring

/-- A field of a register as a number. -/
theorem extract_toNat (h : Block) (lo len : Nat) : (h.extractLsb' lo len).toNat = h.toNat / 2 ^ lo % 2 ^ len := by
  rw [BitVec.extractLsb'_toNat, Nat.shiftRight_eq_div_pow]

/-- A header is its five fields. -/
theorem header_fields (h : Block) :
    h.toNat = (hdrOp h).toNat * 2 ^ 120 + (hdrRsv1 h).toNat * 2 ^ 112 + (hdrNlen h).toNat * 2 ^ 96 +
      (hdrRsv2 h).toNat * 2 ^ 64 + (hdrDlen h).toNat := by
  have := h.isLt
  simp only [hdrOp, hdrRsv1, hdrNlen, hdrRsv2, hdrDlen, extract_toNat]
  omega

@[simp] theorem hdrOp_cmdHeader (op : Byte) (n : BitVec 16) (d : Word64) : hdrOp (cmdHeader op n d) = op := by
  apply BitVec.eq_of_toNat_eq
  have := op.isLt; have := n.isLt; have := d.isLt
  rw [hdrOp, extract_toNat, cmdHeader_toNat]
  omega

@[simp] theorem hdrRsv1_cmdHeader (op : Byte) (n : BitVec 16) (d : Word64) : hdrRsv1 (cmdHeader op n d) = 0 := by
  apply BitVec.eq_of_toNat_eq
  have := op.isLt; have := n.isLt; have := d.isLt
  rw [hdrRsv1, extract_toNat, cmdHeader_toNat]
  show _ = 0
  omega

@[simp] theorem hdrNlen_cmdHeader (op : Byte) (n : BitVec 16) (d : Word64) : hdrNlen (cmdHeader op n d) = n := by
  apply BitVec.eq_of_toNat_eq
  have := op.isLt; have := n.isLt; have := d.isLt
  rw [hdrNlen, extract_toNat, cmdHeader_toNat]
  omega

@[simp] theorem hdrRsv2_cmdHeader (op : Byte) (n : BitVec 16) (d : Word64) : hdrRsv2 (cmdHeader op n d) = 0 := by
  apply BitVec.eq_of_toNat_eq
  have := op.isLt; have := n.isLt; have := d.isLt
  rw [hdrRsv2, extract_toNat, cmdHeader_toNat]
  show _ = 0
  omega

@[simp] theorem hdrDlen_cmdHeader (op : Byte) (n : BitVec 16) (d : Word64) : hdrDlen (cmdHeader op n d) = d := by
  apply BitVec.eq_of_toNat_eq
  have := op.isLt; have := n.isLt; have := d.isLt
  rw [hdrDlen, extract_toNat, cmdHeader_toNat]
  omega

@[simp] theorem hdrOp_engHeader (op : Byte) (p : Word64) : hdrOp (engHeader op p) = op := by
  apply BitVec.eq_of_toNat_eq
  have := op.isLt; have := p.isLt
  rw [hdrOp, extract_toNat, engHeader_toNat]
  omega

@[simp] theorem hdrZero_engHeader (op : Byte) (p : Word64) : hdrZero (engHeader op p) = 0 := by
  apply BitVec.eq_of_toNat_eq
  have := op.isLt; have := p.isLt
  rw [hdrZero, extract_toNat, engHeader_toNat]
  show _ = 0
  omega

@[simp] theorem hdrDlen_engHeader (op : Byte) (p : Word64) : hdrDlen (engHeader op p) = p := by
  apply BitVec.eq_of_toNat_eq
  have := op.isLt; have := p.isLt
  rw [hdrDlen, extract_toNat, engHeader_toNat]
  omega

/-! ### Framing -/

/-- The decoder on a stream that starts with a header and the payload it announces. -/
theorem decode_framed (ch : Channel) (h : Block) (p rest : List Byte) (hp : p.length = payloadLength ch h) :
    decode ch (blockBytes h ++ p ++ rest) =
      match decodeFramed ch h p with
      | .error why => .illegal why rest
      | .ok i => .instr i rest := by
  have h16 : (blockBytes h).length = 16 := blockBytes_length h
  rw [decode, if_neg (by simp only [List.length_append, h16]; omega), List.append_assoc,
    List.take_left' h16, List.drop_left' h16, bytesBlock_blockBytes]
  simp only [← hp]
  cases hd : decodeFramed ch h p <;>
    simp only [if_neg (by simp only [List.length_append]; omega : ¬ (p ++ rest).length < p.length),
      List.take_left' rfl, List.drop_left' rfl, hd]

/-- The table word's instruction is what the decoder reads from its bytes (log 14). -/
theorem decode_zeroPayloadBytes (ch : Channel) (h : Block) (rest : List Byte) :
    decode ch (zeroPayloadBytes ch h ++ rest) =
      match decodeFramed ch h (List.replicate (payloadLength ch h) 0) with
      | .error why => .illegal why rest
      | .ok i => .instr i rest :=
  decode_framed ch h _ rest (by simp)

/-! ### The decoder when it finds nothing whole -/

theorem decode_short (ch : Channel) (bs : List Byte) (h : bs.length < 16) : decode ch bs = .incomplete := by
  rw [decode, if_pos h]

end Sys2Proof.Laws
end

