-- ==== Sys2Proof/Laws/Headers.lean ====
section
/-! SUPPORT. Headers determined by their fields, when a header is a command, and that decoding inverts encoding field by field. -/

namespace Sys2Proof.Laws

/-- A command header is determined by its five fields. -/
theorem header_ext {h k : Block} (h1 : hdrOp h = hdrOp k) (h2 : hdrRsv1 h = hdrRsv1 k) (h3 : hdrNlen h = hdrNlen k)
    (h4 : hdrRsv2 h = hdrRsv2 k) (h5 : hdrDlen h = hdrDlen k) : h = k := by
  apply BitVec.eq_of_toNat_eq
  rw [header_fields h, header_fields k, h1, h2, h3, h4, h5]

/-- The seven zero bytes of an engine request header are the three middle fields of a command header. -/
theorem hdrZero_eq_zero (h : Block) : hdrZero h = 0 ↔ hdrRsv1 h = 0 ∧ hdrNlen h = 0 ∧ hdrRsv2 h = 0 := by
  have := h.isLt
  simp only [← BitVec.toNat_inj, hdrZero, hdrRsv1, hdrNlen, hdrRsv2, extract_toNat]
  show _ = 0 ↔ _ = 0 ∧ _ = 0 ∧ _ = 0
  omega

/-- When a header stands for a command (30_encoding.md R83 to R86). -/
theorem commandOf_eq_ok {h : Block} {op : Opcode} : commandOf h = .ok op ↔
    commandOfOp (hdrOp h) = some op ∧ hdrRsv1 h = 0 ∧ hdrRsv2 h = 0 ∧ (op.isInit = false → hdrNlen h = 0) ∧
    (op.noData = true → hdrDlen h = 0) ∧ (op.isInit = true → (hdrDlen h).toNat < 2 ^ 61) := by
  unfold commandOf
  cases e : commandOfOp (hdrOp h) with
  | none => simp
  | some o =>
    simp only
    split_ifs with h1 h2 h3 h4
    · simp only [Option.some.injEq, false_iff]; rintro ⟨rfl, a, b, _⟩; simp_all
    · simp only [Option.some.injEq, false_iff]; rintro ⟨rfl, a, b, c, _⟩; simp_all
    · simp only [Option.some.injEq, false_iff]; rintro ⟨rfl, a, b, c, d, _⟩; simp_all
    · simp only [Option.some.injEq, false_iff]; rintro ⟨rfl, a, b, c, d, f⟩; have := f h4.1; omega
    · simp only [Except.ok.injEq, Option.some.injEq]
      constructor
      · rintro rfl
        push Not at h1 h2 h3 h4
        exact ⟨rfl, h1.1, h1.2, h2, h3, h4⟩
      · exact fun k => k.1

/-- The `OP` values of the seven commands. -/
theorem commandOfOp_eq_some {b : Byte} {op : Opcode} (h : commandOfOp b = some op) : b = op.code ∧
   (op = .tagsize ∨ op = .initEnc ∨ op = .initDec ∨ op = .initVfy ∨ op = .next ∨ op = .finEnc ∨ op = .finDec) := by
  unfold commandOfOp at h
  split_ifs at h <;> cases h <;> exact ⟨by assumption, by simp⟩

/-- The command read from a header and its payload encodes to them. -/
theorem decoded_command {h : Block} {op : Opcode} {p : List Byte} (hc : commandOf h = .ok op)
   (hp : p.length = (hdrNlen h).toNat + (hdrDlen h).toNat) :
   (operands op h p).wf = true ∧ (operands op h p).channel = .hc ∧ headerOf (operands op h p) = h ∧
     payloadOf (operands op h p) = p := by
  obtain ⟨h1, h2, h3, h4, h5, h6⟩ := commandOf_eq_ok.1 hc
  obtain ⟨hb, hor⟩ := commandOfOp_eq_some h1
  have hN := (hdrNlen h).isLt
  have hD := (hdrDlen h).isLt
  rcases hor with rfl | rfl | rfl | rfl | rfl | rfl | rfl
  · have hn := h4 rfl; have hd := h5 rfl
    rw [hn, hd] at hp
    refine ⟨rfl, rfl, ?_, ?_⟩
    · apply header_ext <;> simp [operands, headerOf, hb, h2, h3, hn, hd, Opcode.code]
    · exact (List.eq_nil_of_length_eq_zero hp).symm
  · have ht := h6 rfl
    have e1 : (p.take (hdrNlen h).toNat).length = (hdrNlen h).toNat := by rw [List.length_take]; omega
    have e2 : (p.drop (hdrNlen h).toNat).length = (hdrDlen h).toNat := by rw [List.length_drop]; omega
    refine ⟨by simp only [operands, Instr.wf, e1, e2, Bool.and_eq_true, decide_eq_true_eq]; omega, rfl, ?_, ?_⟩
    · simp only [operands, headerOf, e1, e2]
      apply header_ext <;> simp [hb, h2, h3, Opcode.code]
    · exact List.take_append_drop _ _
  · have ht := h6 rfl
    have e1 : (p.take (hdrNlen h).toNat).length = (hdrNlen h).toNat := by rw [List.length_take]; omega
    have e2 : (p.drop (hdrNlen h).toNat).length = (hdrDlen h).toNat := by rw [List.length_drop]; omega
    refine ⟨by simp only [operands, Instr.wf, e1, e2, Bool.and_eq_true, decide_eq_true_eq]; omega, rfl, ?_, ?_⟩
    · simp only [operands, headerOf, e1, e2]
      apply header_ext <;> simp [hb, h2, h3, Opcode.code]
    · exact List.take_append_drop _ _
  · have ht := h6 rfl
    have e1 : (p.take (hdrNlen h).toNat).length = (hdrNlen h).toNat := by rw [List.length_take]; omega
    have e2 : (p.drop (hdrNlen h).toNat).length = (hdrDlen h).toNat := by rw [List.length_drop]; omega
    refine ⟨by simp only [operands, Instr.wf, e1, e2, Bool.and_eq_true, decide_eq_true_eq]; omega, rfl, ?_, ?_⟩
    · simp only [operands, headerOf, e1, e2]
      apply header_ext <;> simp [hb, h2, h3, Opcode.code]
    · exact List.take_append_drop _ _
  · have hn := h4 rfl
    have hp' : p.length = (hdrDlen h).toNat := by rw [hp, hn]; simp
    refine ⟨by simp only [operands, Instr.wf, hp', decide_eq_true_eq]; omega, rfl, ?_, rfl⟩
    simp only [operands, headerOf, hp']
    apply header_ext <;> simp [hb, h2, h3, hn, Opcode.code]
  · have hn := h4 rfl; have hd := h5 rfl
    rw [hn, hd] at hp
    refine ⟨rfl, rfl, ?_, ?_⟩
    · apply header_ext <;> simp [operands, headerOf, hb, h2, h3, hn, hd, Opcode.code]
    · exact (List.eq_nil_of_length_eq_zero hp).symm
  · have hn := h4 rfl
    have hp' : p.length = (hdrDlen h).toNat := by rw [hp, hn]; simp
    refine ⟨by simp only [operands, Instr.wf, hp', decide_eq_true_eq]; omega, rfl, ?_, rfl⟩
    simp only [operands, headerOf, hp']
    apply header_ext <;> simp [hb, h2, h3, hn, Opcode.code]

/-- An engine request header is determined by its three fields. -/
theorem engHeader_ext {h k : Block} (h1 : hdrOp h = hdrOp k) (h2 : hdrZero h = hdrZero k) (h5 : hdrDlen h = hdrDlen k) : h = k := by
  apply BitVec.eq_of_toNat_eq
  have := h.isLt; have := k.isLt
  simp only [← BitVec.toNat_inj, hdrOp, hdrZero, hdrDlen, extract_toNat] at h1 h2 h5
  omega

/-- The engine request read from a header and its payload encodes to them. -/
theorem decoded_request {h : Block} {op : Opcode} {p : List Byte} (hc : requestOf h = .ok op)
   (hp : p.length = (hdrDlen h).toNat) :
   (operands op h p).wf = true ∧ (operands op h p).channel = .ep ∧ headerOf (operands op h p) = h ∧
     payloadOf (operands op h p) = p := by
  have hD := (hdrDlen h).isLt
  unfold requestOf at hc
  cases e : requestOfOp (hdrOp h) with
  | none => rw [e] at hc; cases hc
  | some o =>
    rw [e] at hc
    simp only at hc
    split_ifs at hc with h1 h2
    cases hc
    push Not at h1
    have h2 : requestLengthOk op (hdrDlen h).toNat = true := by simpa using h2
    rw [← hp] at h2
    have hd : hdrDlen h = BitVec.ofNat 64 p.length := by rw [hp]; simp
    unfold requestOfOp at e
    split_ifs at e with g1 g2 g3 g4 g5 <;> cases e <;> simp only [requestLengthOk, Bool.and_eq_true, decide_eq_true_eq] at h2
    · refine ⟨by simp only [operands, Instr.wf, Bool.and_eq_true, decide_eq_true_eq]; exact h2, rfl, ?_, rfl⟩
      apply engHeader_ext <;> simp [operands, headerOf, g1, h1, hd]
    · refine ⟨rfl, rfl, ?_, blockBytes_bytesBlock _ h2⟩
      apply engHeader_ext <;> simp [operands, headerOf, g2, h1, hd, h2]
    · have e0 : 16 + (p.drop 16).length = p.length := by rw [List.length_drop]; omega
      refine ⟨?_, rfl, ?_, ?_⟩
      · simp only [operands, Instr.wf, Bool.and_eq_true, decide_eq_true_eq, List.length_drop]; omega
      · simp only [operands, headerOf, e0]; apply engHeader_ext <;> simp [g3, h1, hd]
      · simp only [operands, payloadOf]; rw [blockBytes_bytesBlock _ (by rw [List.length_take]; omega), List.take_append_drop]
    · have e0 : 16 + (p.drop 16).length = p.length := by rw [List.length_drop]; omega
      refine ⟨?_, rfl, ?_, ?_⟩
      · simp only [operands, Instr.wf, Bool.and_eq_true, decide_eq_true_eq, List.length_drop]; omega
      · simp only [operands, headerOf, e0]; apply engHeader_ext <;> simp [g4, h1, hd]
      · simp only [operands, payloadOf]; rw [blockBytes_bytesBlock _ (by rw [List.length_take]; omega), List.take_append_drop]
    · refine ⟨rfl, rfl, ?_, blockBytes_bytesBlock _ h2⟩
      apply engHeader_ext <;> simp [operands, headerOf, g5, h1, hd, h2]

/-- The top three bits are zero below 2^61. -/
theorem and_top_three (x : Word64) : x &&& 0xE000000000000000 = 0 ↔ x.toNat < 2 ^ 61 := by
  constructor
  · intro h
    apply Nat.lt_pow_two_of_testBit
    intro i hi
    by_cases h64 : i < 64
    · have := congrArg (fun z : Word64 => z.getLsbD i) h
      simp only [BitVec.getLsbD_and] at this
      have hm : (0xE000000000000000 : Word64).getLsbD i = true := by
        have : i = 61 ∨ i = 62 ∨ i = 63 := by omega
        rcases this with rfl | rfl | rfl <;> decide
      rw [hm] at this
      simpa [BitVec.getLsbD] using this
    · exact Nat.testBit_lt_two_pow (lt_of_lt_of_le x.isLt (Nat.pow_le_pow_right (by norm_num) (by omega)))
  · intro h
    have : (0xE000000000000000 : Word64).toNat = 7 * 2 ^ 61 := by decide +kernel
    apply BitVec.eq_of_toNat_eq
    rw [BitVec.toNat_and, this]
    apply Nat.eq_of_testBit_eq
    intro i
    rw [Nat.testBit_and]
    by_cases hi : i < 61
    · rw [Nat.testBit_mul_two_pow]; simp; omega
    · rw [Nat.testBit_lt_two_pow (lt_of_lt_of_le h (Nat.pow_le_pow_right (by norm_num) (by omega)))]; simp

/-- A mask compares a header field by field. -/
theorem and_eq_fields (h m k : Block) : h &&& m = k ↔
    hdrOp h &&& hdrOp m = hdrOp k ∧ hdrRsv1 h &&& hdrRsv1 m = hdrRsv1 k ∧
      hdrNlen h &&& hdrNlen m = hdrNlen k ∧ hdrRsv2 h &&& hdrRsv2 m = hdrRsv2 k ∧
      hdrDlen h &&& hdrDlen m = hdrDlen k := by
  have e : ∀ a b, (h &&& m).extractLsb' a b = h.extractLsb' a b &&& m.extractLsb' a b := fun a b => by
    ext i hi; simp
  constructor
  · rintro rfl
    simp only [hdrOp, hdrRsv1, hdrNlen, hdrRsv2, hdrDlen, e, and_self]
  · rintro ⟨a, b, c, d, f⟩
    exact header_ext ((e _ _).trans a) ((e _ _).trans b) ((e _ _).trans c) ((e _ _).trans d) ((e _ _).trans f)

end Sys2Proof.Laws
end

