-- ==== Sys2Proof/Laws/PerInstr.lean ====
section
/-! SUPPORT. The family Encoding, one lemma per constructor: the header of a well-formed instruction announces its payload, and header and payload decode to the instruction. -/

namespace Sys2Proof.Laws.Encoding

/-- What is said of each instruction. -/
def Statement (i : Instr) : Prop :=
  i.wf = true →
    (payloadOf i).length = payloadLength i.channel (headerOf i) ∧
      decodeFramed i.channel (headerOf i) (payloadOf i) = .ok i

theorem tagsize : Statement .tagsize := by
  intro _; exact ⟨by decide, by decide⟩

theorem initEnc (n a : List Byte) : Statement (.initEnc n a) := by
  intro h
  simp only [Instr.wf, Bool.and_eq_true, decide_eq_true_eq] at h
  have e1 : n.length % 65536 = n.length := by omega
  have e2 : a.length % 18446744073709551616 = a.length := by omega
  have e3 : ¬ (2305843009213693952 ≤ a.length) := by omega
  simp [payloadOf, payloadLength, headerOf, Instr.channel, decodeFramed, selectRow, commandOf, commandOfOp,
    Opcode.isInit, Opcode.noData, operands, e1, e2, e3]

theorem initDec (n a : List Byte) : Statement (.initDec n a) := by
  intro h
  simp only [Instr.wf, Bool.and_eq_true, decide_eq_true_eq] at h
  have e1 : n.length % 65536 = n.length := by omega
  have e2 : a.length % 18446744073709551616 = a.length := by omega
  have e3 : ¬ (2305843009213693952 ≤ a.length) := by omega
  simp [payloadOf, payloadLength, headerOf, Instr.channel, decodeFramed, selectRow, commandOf, commandOfOp,
    Opcode.isInit, Opcode.noData, operands, e1, e2, e3]

theorem initVfy (n a : List Byte) : Statement (.initVfy n a) := by
  intro h
  simp only [Instr.wf, Bool.and_eq_true, decide_eq_true_eq] at h
  have e1 : n.length % 65536 = n.length := by omega
  have e2 : a.length % 18446744073709551616 = a.length := by omega
  have e3 : ¬ (2305843009213693952 ≤ a.length) := by omega
  simp [payloadOf, payloadLength, headerOf, Instr.channel, decodeFramed, selectRow, commandOf, commandOfOp,
    Opcode.isInit, Opcode.noData, operands, e1, e2, e3]

theorem next (d : List Byte) : Statement (.next d) := by
  intro h
  simp only [Instr.wf, decide_eq_true_eq] at h
  have e : d.length % 18446744073709551616 = d.length := by omega
  simp [payloadOf, payloadLength, headerOf, Instr.channel, decodeFramed, selectRow, commandOf, commandOfOp,
    Opcode.isInit, Opcode.noData, operands, e]

theorem finEnc : Statement .finEnc := by
  intro _; exact ⟨by decide, by decide⟩

theorem finDec (t : List Byte) : Statement (.finDec t) := by
  intro h
  simp only [Instr.wf, decide_eq_true_eq] at h
  have e : t.length % 18446744073709551616 = t.length := by omega
  simp [payloadOf, payloadLength, headerOf, Instr.channel, decodeFramed, selectRow, commandOf, commandOfOp,
    Opcode.isInit, Opcode.noData, operands, e]

theorem engDerive (n : List Byte) : Statement (.engDerive n) := by
  intro h
  simp only [Instr.wf, Bool.and_eq_true, decide_eq_true_eq] at h
  have e : n.length % 18446744073709551616 = n.length := by omega
  have e' : requestLengthOk .engDerive n.length = true := by
    simp only [requestLengthOk, Bool.and_eq_true, decide_eq_true_eq]; omega
  simp [payloadOf, payloadLength, headerOf, Instr.channel, decodeFramed, selectRow, requestOf, requestOfOp,
    operands, e, e']

theorem engInc (c : Block) : Statement (.engInc c) := by
  intro _
  simp [payloadOf, payloadLength, headerOf, Instr.channel, decodeFramed, selectRow, requestOf, requestOfOp,
    requestLengthOk, operands]

theorem engCtr (c : Block) (d : List Byte) : Statement (.engCtr c d) := by
  intro h
  simp only [Instr.wf, Bool.and_eq_true, decide_eq_true_eq] at h
  have e : (16 + d.length) % 18446744073709551616 = 16 + d.length := by omega
  have e' : requestLengthOk .engCtr (16 + d.length) = true := by
    simp only [requestLengthOk, Bool.and_eq_true, decide_eq_true_eq]; omega
  simp [payloadOf, payloadLength, headerOf, Instr.channel, decodeFramed, selectRow, requestOf, requestOfOp,
    operands, e, e', List.take_left', List.drop_left']

theorem engGhash (y : Block) (d : List Byte) : Statement (.engGhash y d) := by
  intro h
  simp only [Instr.wf, Bool.and_eq_true, decide_eq_true_eq] at h
  have e : (16 + d.length) % 18446744073709551616 = 16 + d.length := by omega
  have e' : requestLengthOk .engGhash (16 + d.length) = true := by
    simp only [requestLengthOk, Bool.and_eq_true, decide_eq_true_eq]; omega
  simp [payloadOf, payloadLength, headerOf, Instr.channel, decodeFramed, selectRow, requestOf, requestOfOp,
    operands, e, e', List.take_left', List.drop_left']

theorem engEnc (b : Block) : Statement (.engEnc b) := by
  intro _
  simp [payloadOf, payloadLength, headerOf, Instr.channel, decodeFramed, selectRow, requestOf, requestOfOp,
    requestLengthOk, operands]

end Sys2Proof.Laws.Encoding
end

