-- ==== Sys2Proof/Laws/Runs.lean ====
section
/-! SUPPORT. Runs of commands: a run of NEXT as one induction, and how the pieces of a message make up one-shot GCM. -/

namespace Sys2Proof.Laws

open Sys2Proof.Machine

/-- The output of an accepted NEXT continues the one-shot ciphertext (plaintext) of the bytes taken. -/
theorem nextOut_continues {s : State} {n a x : List Byte} (d : List Byte) (h : s.InMessage n a x)
    (hm : s.mode ≠ .vfy) :
    (gcmCipher s.engine n x).take (16 * (x.length / 16)) ++ nextOut s d =
      (gcmCipher s.engine n (x ++ d)).take (16 * ((x ++ d).length / 16)) := by
  have hwx : (wholePart x).length % 16 = 0 := by rw [wholePart_length]; omega
  have hwl : (wholePart x).length / 16 = x.length / 16 := by rw [wholePart_length]; omega
  have hwl' : (wholePart (x ++ d)).length / 16 = (x ++ d).length / 16 := by rw [wholePart_length]; omega
  have hwxd : wholePart (x ++ d) = wholePart x ++ nextHead s d := by
    rw [nextHead, h.pending, wholePart_append]
  rw [gcmCipher_take_whole, gcmCipher_take_whole, ← hwl', hwxd,
    xor_keystream_append _ _ _ _ hwx (nextHead_length_mod s d), nextOut, if_neg hm, h.ctr, if_neg hm,
    iterate_succ_add, hwl]

/-- The surroundings stay the same over two changes. -/
theorem SameSurroundings_trans {s t u : State} (h : SameSurroundings s t) (k : SameSurroundings t u) :
    SameSurroundings s u :=
  ⟨k.1.trans h.1, k.2.1.trans h.2.1, k.2.2.1.trans h.2.2.1, k.2.2.2.1.trans h.2.2.2.1,
    k.2.2.2.2.trans h.2.2.2.2⟩

/-- A run of NEXT commands on a message in progress. -/
theorem execAll_next (fs : List (List Byte)) : ∀ {s : State} {n a x : List Byte}, s.phase = .active →
    s.InMessage n a x → x.length + fs.flatten.length ≤ Config.limit →
    ∃ t outs, execAll (fs.map Instr.next) s = .next t ∧ t.InMessage n a (x ++ fs.flatten) ∧ t.phase = .active ∧
      t.mode = s.mode ∧ t.cause = s.cause ∧ SameSurroundings s t ∧ t.hr = s.hr ++ okResponses outs ∧
      outs.length = fs.length ∧ (s.pb = pendingCells s.pending → t.pb = pendingCells t.pending) ∧
      (s.mode ≠ .vfy → (gcmCipher s.engine n x).take (16 * (x.length / 16)) ++ outs.flatten =
        (gcmCipher s.engine n (x ++ fs.flatten)).take (16 * ((x ++ fs.flatten).length / 16))) ∧
      (s.mode = .vfy → outs = List.replicate fs.length []) := by
  induction fs with
  | nil =>
    intro s n a x hp h hl
    exact ⟨s, [], rfl, by simpa using h, hp, rfl, rfl, by simp [SameSurroundings], by simp [okResponses], rfl, id,
      by simp, by simp⟩
  | cons f fs ih =>
    intro s n a x hp h hl
    rw [List.flatten_cons, List.length_append] at hl
    obtain ⟨-, -, -, hpb, -, hhr, -, -, hmd, hph', hca, hss⟩ := takeFragment_spec s f
    have hm1 := takeFragment_inMessage f h (by omega)
    obtain ⟨t, outs, e1, e2, e3, e4, e5, e6, e7, e8, e10, e11, e12⟩ :=
      ih (hph'.trans hp) hm1 (by rw [List.length_append]; omega)
    refine ⟨t, nextOut s f :: outs, ?_, by rw [List.flatten_cons, ← List.append_assoc]; exact e2, e3,
      e4.trans hmd, e5.trans hca, SameSurroundings_trans hss e6, ?_, by simp [e8],
      fun _ => e10 (by rw [hpb, takeFragment_pending]), ?_, ?_⟩
    · rw [List.map_cons, execAll,
        show exec (.next f) s = .next (takeFragment f s) from execNext_accepted hp (by rw [h.ctlen]; omega)]
      exact e1
    · rw [e7, hhr]; simp [okResponses]
    · intro hm
      have h1 := nextOut_continues f h hm
      have h2 := e11 (by rw [hmd]; exact hm)
      rw [hss.2.1, ← h1] at h2
      rw [List.flatten_cons, List.flatten_cons, ← List.append_assoc, h2, ← List.append_assoc]
    · intro hm
      rw [e12 (hmd.trans hm), nextOut, if_pos hm]; simp [List.replicate_succ]

/-- Two states of the same message have the same data registers. -/
theorem inMessage_sameData {s t : State} {n a x : List Byte} (h1 : s.InMessage n a x) (h2 : t.InMessage n a x)
    (he : t.engine = s.engine) (hm : t.mode = s.mode) (p1 : s.pb = pendingCells s.pending)
    (p2 : t.pb = pendingCells t.pending) : SameData s t :=
  ⟨by rw [h1.y, h2.y, he, hm], BitVec.eq_of_toNat_eq (by rw [h1.adbits, h2.adbits]),
    BitVec.eq_of_toNat_eq (by rw [h1.ctlen, h2.ctlen]), by rw [h1.ctr, h2.ctr, he, hm], by rw [h1.tm, h2.tm, he],
    by rw [p1, p2, h1.pending, h2.pending],
    BitVec.eq_of_toNat_eq (by rw [← pending_length, ← pending_length, h1.pending, h2.pending]), hm⟩

/-- A run after a run. -/
theorem execAll_append (l1 l2 : List Instr) : ∀ {s t : State}, execAll l1 s = .next t →
    execAll (l1 ++ l2) s = execAll l2 t := by
  induction l1 with
  | nil => intro s t h; cases h; rfl
  | cons i l ih =>
    intro s t h
    rw [execAll] at h
    rw [List.cons_append, execAll]
    cases he : exec i s with
    | next s' => rw [he] at h; exact ih h
    | fault r => rw [he] at h; cases h
    | refused r => rw [he] at h; cases h

/-- The one-shot ciphertext is its whole blocks, then the tail under the next keystream block. -/
theorem gcmCipher_tail (e : Engine) (n p : List Byte) :
    gcmCipher e n p = (gcmCipher e n p).take (16 * (p.length / 16)) ++
      xorBytes (restPart p) (blockBytes (engEnc e ((engInc e)^[1 + p.length / 16] (initialCounter e n)))) := by
  conv_lhs => rw [gcmCipher_split]
  rw [gcmCipher_take_whole]

/-- The folds of a message and its close make up the one-shot tag. -/
theorem gcmTag_eq (e : Engine) (n ad c : List Byte) (ab cl : Word64) (h1 : ab.toNat = 8 * ad.length)
    (h2 : cl.toNat = c.length) :
    engGhash e (engGhash e (engGhash e (engGhash e 0 (pad16 ad)) (wholePart c)) (pad16 (restPart c)))
      (lengthBlock ab cl) ^^^ engEnc e (initialCounter e n) = gcmTag e n ad c := by
  rw [gcmTag, lengthBlock, h1, h2, ← engGhash_append _ _ (wholePart c) _ (by rw [wholePart_length]; omega),
    ← pad16_split, ← engGhash_append _ _ (pad16 ad) _ (by rw [pad16_length]; omega),
    ← engGhash_append _ _ (pad16 ad ++ pad16 c) _ (by rw [List.length_append, pad16_length, pad16_length]; omega)]
  simp only [List.append_assoc]

/-- The tag FIN_DEC expects is the one-shot tag. -/
theorem expectedTag_eq {t : State} {n a c : List Byte} (h : t.InMessage n a c) (hm : t.mode ≠ .enc) :
    expectedTag t = gcmTag t.engine n a c := by
  rw [expectedTag, h.pending, h.y, h.tm, cipherOf, if_neg hm]
  exact gcmTag_eq _ _ _ _ _ _ h.adbits h.ctlen

end Sys2Proof.Laws
end

