-- ==== Sys2Proof/Laws/Step.lean ====
section
/-! SUPPORT. What a step can do, said once: the reset input, a command, an illegal descriptor, an engine request, or waiting. -/

namespace Sys2Proof.Laws

open Sys2Proof.Machine

/-- With no reset asserted now, a step looks at the channels with the host's resets counted down. -/
theorem fetch_of_not_due {s : State} (h : s.resetDue = false) : fetch s = fetchChannels s.tick := by
  unfold fetch
  split
  · rename_i b l e
    rw [(resetDue_iff s).2 ⟨b, l, e⟩] at h
    cases h
  · rfl

/-- With a reset asserted now, a step finds it before anything else. -/
theorem fetch_of_due {s : State} {b : List Byte} {l : List ResetInput} (h : s.resets = ⟨0, b⟩ :: l) :
    fetch s = .reset (s.applyReset b l) := by
  simp only [fetch, h]

/-- What a step finds on the channels when nothing stands on EP. -/
theorem fetchChannels_hc {s : State} (h : s.epPending = []) :
    fetchChannels s = match decode .hc s.hc with
      | .incomplete => .wait s
      | .illegal _ rest => .illegal { s with hc := rest }
      | .instr i rest => .run i { s with hc := rest } := by
  cases hd : decode .hc s.hc <;> simp only [fetchChannels, if_pos h, hd]

/-- What a step finds on the channels when a request stands on EP. -/
theorem fetchChannels_ep {s : State} (h : s.epPending ≠ []) :
    fetchChannels s = match decode .ep s.epPending with
      | .incomplete => .wait s
      | .illegal _ _ => .malformed
      | .instr i rest => .run i { s with epPending := rest } := by
  cases hd : decode .ep s.epPending <;> simp only [fetchChannels, if_neg h, hd]

/-- Everything a step that answers a next state can have done. -/
theorem step_cases {s t : State} (h : step s = .next t) :
    s.nsize ≠ 0 ∧
      ((∃ b l, s.resets = ⟨0, b⟩ :: l ∧ t = s.applyReset b l) ∨
        s.resetDue = false ∧
          ((t = s.tick ∧
              (s.epPending = [] ∧ decode .hc s.hc = .incomplete ∨
                s.epPending ≠ [] ∧ decode .ep s.epPending = .incomplete)) ∨
            (∃ why rest, s.epPending = [] ∧ decode .hc s.hc = .illegal why rest ∧
              illegalCommand { s.tick with hc := rest } = .next t) ∨
            (∃ i rest, s.epPending = [] ∧ decode .hc s.hc = .instr i rest ∧
              exec i { s.tick with hc := rest } = .next t) ∨
            (∃ i rest, s.epPending ≠ [] ∧ decode .ep s.epPending = .instr i rest ∧
              exec i { s.tick with epPending := rest } = .next t))) := by
  unfold step at h
  split at h
  · cases h
  · rename_i hn
    refine ⟨hn, ?_⟩
    by_cases hd : s.resetDue = true
    · obtain ⟨b, l, e⟩ := (resetDue_iff s).1 hd
      rw [fetch_of_due e] at h
      cases h
      exact .inl ⟨b, l, e, rfl⟩
    · have hd : s.resetDue = false := by simpa using hd
      refine .inr ⟨hd, ?_⟩
      rw [fetch_of_not_due hd] at h
      by_cases he : s.epPending = []
      · rw [fetchChannels_hc (by exact he)] at h
        simp only [tick_hc] at h
        cases hc : decode .hc s.hc with
        | incomplete => rw [hc] at h; cases h; exact .inl ⟨rfl, .inl ⟨he, rfl⟩⟩
        | illegal w r => rw [hc] at h; exact .inr (.inl ⟨w, r, he, rfl, h⟩)
        | instr i r => rw [hc] at h; exact .inr (.inr (.inl ⟨i, r, he, rfl, h⟩))
      · rw [fetchChannels_ep (by exact he)] at h
        simp only [tick_epPending] at h
        cases hc : decode .ep s.epPending with
        | incomplete => rw [hc] at h; cases h; exact .inl ⟨rfl, .inr ⟨he, rfl⟩⟩
        | illegal w r => rw [hc] at h; cases h
        | instr i r => rw [hc] at h; exact .inr (.inr (.inr ⟨i, r, he, rfl, h⟩))

end Sys2Proof.Laws
end

