-- ==== Sys2Proof/Tests/Slice0.lean ====
section
/-! SUPPORT. Tests with expected values from 95_test_vectors.md (the V-numbers), ill-formed terms, and a witness for the hypotheses of every statement. -/

namespace Sys2Proof.Tests

open Sys2Proof.Machine Sys2Proof.Laws

set_option Elab.async false

/-! ### Ill-formed instructions are refused by the check, and the bounds are sharp -/

theorem test_wf_nonce_too_long :
    Instr.wf (.initEnc (List.replicate (2 ^ 16) 0) []) = false ∧
      Instr.wf (.initDec (List.replicate (2 ^ 16) 0) []) = false ∧
      Instr.wf (.initVfy (List.replicate (2 ^ 16) 0) []) = false ∧
      Instr.wf (.initVfy (List.replicate (2 ^ 16 - 1) 0) []) = true := by
  simp only [Instr.wf, List.length_replicate, List.length_nil]; decide

theorem test_wf_associated_data_too_long :
    Instr.wf (.initEnc [] (List.replicate (2 ^ 61) 0)) = false ∧
      Instr.wf (.initDec [] (List.replicate (2 ^ 61) 0)) = false ∧
      Instr.wf (.initVfy [] (List.replicate (2 ^ 61) 0)) = false ∧
      Instr.wf (.initEnc [] (List.replicate (2 ^ 61 - 1) 0)) = true := by
  simp only [Instr.wf, List.length_replicate, List.length_nil]; decide

theorem test_wf_data_too_long :
    Instr.wf (.next (List.replicate (2 ^ 64) 0)) = false ∧ Instr.wf (.finDec (List.replicate (2 ^ 64) 0)) = false ∧
      Instr.wf (.next (List.replicate (2 ^ 64 - 1) 0)) = true := by
  simp only [Instr.wf, List.length_replicate]; decide

theorem test_wf_engine_nonce :
    Instr.wf (.engDerive []) = false ∧ Instr.wf (.engDerive (List.replicate (2 ^ 16) 0)) = false ∧
      Instr.wf (.engDerive [0]) = true := by
  simp only [Instr.wf, List.length_replicate, List.length_nil, List.length_cons]; decide

theorem test_wf_engine_data :
    Instr.wf (.engCtr 0 []) = false ∧ Instr.wf (.engGhash 0 []) = false ∧
      Instr.wf (.engCtr 0 (List.replicate 17 0)) = false ∧ Instr.wf (.engGhash 0 (List.replicate 17 0)) = false ∧
      Instr.wf (.engCtr 0 (List.replicate (2 ^ 64 - 16) 0)) = false ∧
      Instr.wf (.engGhash 0 (List.replicate (2 ^ 64 - 16) 0)) = false ∧
      Instr.wf (.engCtr 0 (List.replicate (2 ^ 64 - 32) 0)) = true := by
  simp only [Instr.wf, List.length_replicate, List.length_nil]; decide

/-! ### Words written out from 30_encoding.md R80, R91 and V-E1 to V-E17 -/

theorem test_decode_tagsize_V_E1 :
    decode .hc [0x01, 0x00, 0x00, 0x00, 0x00, 0x00, 0x00, 0x00, 0x00, 0x00, 0x00, 0x00, 0x00, 0x00, 0x00, 0x00]
      = .instr .tagsize [] := by decide +kernel

theorem test_decode_initEnc_V_E2 :
    decode .hc [0x10, 0x00, 0x00, 0x0C, 0x00, 0x00, 0x00, 0x00, 0x00, 0x00, 0x00, 0x00, 0x00, 0x00, 0x00, 0x03,
        0x01, 0x02, 0x03, 0x04, 0x05, 0x06, 0x07, 0x08, 0x09, 0x0A, 0x0B, 0x0C, 0xAA, 0xBB, 0xCC]
      = .instr (.initEnc [1, 2, 3, 4, 5, 6, 7, 8, 9, 10, 11, 12] [0xAA, 0xBB, 0xCC]) [] := by decide +kernel

theorem test_decode_initDec_V_E3 :
    decode .hc [0x11, 0x00, 0x00, 0x0C, 0x00, 0x00, 0x00, 0x00, 0x00, 0x00, 0x00, 0x00, 0x00, 0x00, 0x00, 0x00,
        0, 0, 0, 0, 0, 0, 0, 0, 0, 0, 0, 0]
      = .instr (.initDec [0, 0, 0, 0, 0, 0, 0, 0, 0, 0, 0, 0] []) [] := by decide +kernel

theorem test_decode_initVfy_V_E4 :
    decode .hc [0x12, 0x00, 0x00, 0x08, 0x00, 0x00, 0x00, 0x00, 0x00, 0x00, 0x00, 0x00, 0x00, 0x00, 0x00, 0x00,
        0xCA, 0xFE, 0xBA, 0xBE, 0xFA, 0xCE, 0xDB, 0xAD]
      = .instr (.initVfy [0xCA, 0xFE, 0xBA, 0xBE, 0xFA, 0xCE, 0xDB, 0xAD] []) [] := by decide +kernel

theorem test_decode_next_V_E6 :
    decode .hc [0x20, 0x00, 0x00, 0x00, 0x00, 0x00, 0x00, 0x00, 0x00, 0x00, 0x00, 0x00, 0x00, 0x00, 0x00, 0x03,
        0x00, 0x01, 0x02, 0x30, 0x00]
      = .instr (.next [0x00, 0x01, 0x02]) [0x30, 0x00] := by decide +kernel

theorem test_decode_finEnc_V_E7 :
    decode .hc [0x30, 0x00, 0x00, 0x00, 0x00, 0x00, 0x00, 0x00, 0x00, 0x00, 0x00, 0x00, 0x00, 0x00, 0x00, 0x00]
      = .instr .finEnc [] := by decide +kernel

theorem test_decode_finDec_V_E8 :
    decode .hc [0x31, 0x00, 0x00, 0x00, 0x00, 0x00, 0x00, 0x00, 0x00, 0x00, 0x00, 0x00, 0x00, 0x00, 0x00, 0x10,
        0xB7, 0xB2, 0x06, 0x0B, 0x08, 0x05, 0x12, 0x0F, 0x01, 0x07, 0x01, 0x03, 0xA4, 0xB9, 0xD5, 0xB0]
      = .instr (.finDec [0xB7, 0xB2, 0x06, 0x0B, 0x08, 0x05, 0x12, 0x0F, 0x01, 0x07, 0x01, 0x03, 0xA4, 0xB9, 0xD5,
        0xB0]) [] := by decide +kernel

theorem test_decode_engDerive_V_E15 :
    decode .ep [0x01, 0x00, 0x00, 0x00, 0x00, 0x00, 0x00, 0x00, 0x00, 0x00, 0x00, 0x00, 0x00, 0x00, 0x00, 0x0C,
        1, 2, 3, 4, 5, 6, 7, 8, 9, 10, 11, 12]
      = .instr (.engDerive [1, 2, 3, 4, 5, 6, 7, 8, 9, 10, 11, 12]) [] := by decide +kernel

theorem test_decode_engInc_V_E17 :
    decode .ep [0x02, 0x00, 0x00, 0x00, 0x00, 0x00, 0x00, 0x00, 0x00, 0x00, 0x00, 0x00, 0x00, 0x00, 0x00, 0x10,
        0x80, 0, 0, 0, 0, 0, 0, 0, 0, 0, 0, 0, 0, 0, 0, 0x0D]
      = .instr (.engInc 0x8000000000000000000000000000000D) [] := by decide +kernel

theorem test_decode_engCtr_V_E16 :
    decode .ep [0x03, 0x00, 0x00, 0x00, 0x00, 0x00, 0x00, 0x00, 0x00, 0x00, 0x00, 0x00, 0x00, 0x00, 0x00, 0x30,
        0x80, 0, 0, 0, 0, 0, 0, 0, 0, 0, 0, 0, 0, 0, 0, 0x0D,
        0x10, 0, 0, 0, 0, 0, 0, 0, 0, 0, 0, 0, 0, 0, 0, 0, 0, 0, 0, 0, 0, 0, 0, 0, 0, 0, 0, 0, 0, 0, 0, 0x2F]
      = .instr (.engCtr 0x8000000000000000000000000000000D
        [0x10, 0, 0, 0, 0, 0, 0, 0, 0, 0, 0, 0, 0, 0, 0, 0, 0, 0, 0, 0, 0, 0, 0, 0, 0, 0, 0, 0, 0, 0, 0, 0x2F]) [] := by
  decide +kernel

theorem test_decode_engGhash_V_E14 :
    decode .ep [0x04, 0x00, 0x00, 0x00, 0x00, 0x00, 0x00, 0x00, 0x00, 0x00, 0x00, 0x00, 0x00, 0x00, 0x00, 0x20,
        0x70, 0, 0, 0, 0, 0, 0, 0, 0, 0, 0, 0, 0, 0, 0, 0x01, 0x10, 0, 0, 0, 0, 0, 0, 0, 0, 0, 0, 0, 0, 0, 0, 0x2F]
      = .instr (.engGhash 0x70000000000000000000000000000001 [0x10, 0, 0, 0, 0, 0, 0, 0, 0, 0, 0, 0, 0, 0, 0, 0x2F])
        [] := by decide +kernel

theorem test_decode_engEnc_V_E13 :
    decode .ep [0x05, 0x00, 0x00, 0x00, 0x00, 0x00, 0x00, 0x00, 0x00, 0x00, 0x00, 0x00, 0x00, 0x00, 0x00, 0x10,
        0, 0, 0, 0, 0, 0, 0, 0, 0, 0, 0, 0, 0, 0, 0, 0x0C]
      = .instr (.engEnc 0x0C) [] := by decide +kernel

/-- V-E20, V-E21, V-E23: legal headers. -/
theorem test_legal_headers :
    commandOf 0x1000000C000000000000000000000003 = .ok .initEnc ∧
      commandOf 0x1000FFFF000000001FFFFFFFFFFFFFFF = .ok .initEnc ∧
      commandOf 0x2000000000000000FFFFFFFFFFFFFFFF = .ok .next := by decide +kernel

/-- V-E22 and V-E24 to V-E29: illegal headers, each for its own reason. -/
theorem test_illegal_headers :
    commandOf 0x10000000000000002000000000000000 = .error .dataTooLong ∧
      commandOf 0x20000001000000000000000000000000 = .error .nonceOperand ∧
      commandOf 0x30000000000000000000000000000001 = .error .dataOperand ∧
      commandOf 0x01000000000000010000000000000000 = .error .reservedField ∧
      commandOf 0x01010000000000000000000000000000 = .error .reservedField ∧
      commandOf 0x00000000000000000000000000000000 = .error .reservedOpcode ∧
      commandOf 0x13000000000000000000000000000000 = .error .reservedOpcode ∧
      commandOf 0x21000000000000000000000000000000 = .error .reservedOpcode ∧
      commandOf 0x32000000000000000000000000000000 = .error .reservedOpcode ∧
      commandOf 0xFF000000000000000000000000000000 = .error .reservedOpcode := by decide +kernel

/-- The engine request headers that R91 does not have: reserved EOP, a non-zero byte, wrong PLEN. -/
theorem test_illegal_requests :
    requestOf 0x06000000000000000000000000000010 = .error .reservedOpcode ∧
      requestOf 0x05010000000000000000000000000010 = .error .reservedField ∧
      requestOf 0x05000000000000000000000000000011 = .error .requestLength ∧
      requestOf 0x03000000000000000000000000000010 = .error .requestLength ∧
      requestOf 0x04000000000000000000000000000021 = .error .requestLength ∧
      requestOf 0x01000000000000000000000000000000 = .error .requestLength := by decide +kernel

/-- V-E10 and V-E12: response descriptors. -/
theorem test_responses :
    responseBytes .ok .noFault [0x10, 0x11, 0x12, 0x13]
        = [0x01, 0, 0, 0, 0, 0, 0, 0, 0, 0, 0, 0, 0, 0, 0, 0x04, 0x10, 0x11, 0x12, 0x13] ∧
      responseBytes .fatal .illegalCommand [] = [0x03, 0x05, 0, 0, 0, 0, 0, 0, 0, 0, 0, 0, 0, 0, 0, 0] := by
  decide +kernel

/-! ### States to start from -/

/-- Reset with engine `TOY` (R123). -/
def toyReset : State := { State.reset with engine := .toy }

/-- Reset with engine `AES0` (R122). -/
def aesReset : State := { State.reset with engine := .aes 0 }

/-- The nonce 00*12. -/
def zeroNonce : List Byte := List.replicate 12 0

/-- V-I1: `TOY`, after INIT with nonce 00*12 and no associated data. -/
def toyOpen (m : Mode) : State :=
  { toyReset with tm := 0xA5A5A5A5A5A5A5A5A5A5A5A5A5A5A9A5, ctr := 0x0D, mode := m, phase := .active }

/-- The start of V-F3 and V-D1: 20 bytes taken, `rest` pending; CTR is advanced but in VFY (V-D2). -/
def toyTail (m : Mode) (rest : List Byte) : State :=
  { toyOpen m with
    ctlen := 20, y := 0xA4A7A6A1A0A3A2ADACAFAEA9A8A6AAA5, ctr := if m = .vfy then 0x0D else 0x0E
    pb := pendingCells rest, pblen := 4 }

/-- The start of V-F6 and V-D10: `AES0`, 5 bytes taken and pending. -/
def aesTail (m : Mode) (rest : List Byte) : State :=
  { aesReset with
    tm := 0x58E2FCCEFA7E3061367F1D57A4E7455A, ctr := 0x02, ctlen := 5, mode := m, phase := .active
    pb := pendingCells rest, pblen := 5 }

/-- FAULTED with cause 2. -/
def faulted : State := { toyReset with phase := .faulted, cause := .notInitialized }

/-- The all-zero header (V-E28) and one more byte on HC. -/
def illegalWaits : State := { toyReset with hc := blockBytes 0 ++ [7] }

/-- The next state of an outcome, reset where there is none. -/
def nextOf : Result → State
  | .next t => t
  | .fault _ => State.reset
  | .refused _ => State.reset

/-- The next state of an outcome, if it is one. -/
def stateOf : Result → Option State
  | .next t => some t
  | .fault _ => none
  | .refused _ => none

theorem eq_next {r : Result} {t : State} (h : stateOf r = some t) : r = .next t := by
  cases r with
  | next u => rw [Option.some.inj h]
  | fault _ => cases h
  | refused _ => cases h

/-- The tag of V-F3 and V-D1. -/
def tag20 : List Byte := blockBytes 0xB4B205060708090A0B0C0D030F0018B6

/-! ### One step of each instruction -/

/-- V-T1, V-T2. -/
theorem test_tagsize :
    (nextOf (exec .tagsize (toyOpen .enc))).hr = responseBytes .ok .noFault [0x10] ∧
      (nextOf (exec .tagsize faulted)).hr = responseBytes .fatal .notInitialized [] := by decide +kernel

/-- V-I2. -/
theorem test_initEnc :
    let t := nextOf (exec (.initEnc [1, 2, 3, 4, 5, 6, 7, 8, 9, 10, 11, 12] [0xAA, 0xBB, 0xCC]) toyReset)
    t.tm = 0xA7A6A1A0A3A2ADACAFAEA9A5A5A5A9A4 ∧ t.ctr = 0x0102030405060708090A0B0C0000000D ∧
      t.y = 0xBBCC00000000000000000000000000AA ∧ t.adbits = 24 ∧ t.mode = .enc ∧ t.phase = .active := by
  decide +kernel

/-- V-I4: a nonce of 11 bytes, of 13 bytes. -/
theorem test_initEnc_nonce_length :
    stateOf (exec (.initEnc (List.replicate 11 0) []) toyReset) = some (toyReset.afterFatal .badNonceLen) ∧
      stateOf (exec (.initEnc (List.replicate 13 0) []) toyReset) = some (toyReset.afterFatal .badNonceLen) := by
  decide +kernel

/-- V-I5. -/
theorem test_initDec :
    let t := nextOf (exec (.initDec zeroNonce []) aesReset)
    t.tm = 0x58E2FCCEFA7E3061367F1D57A4E7455A ∧ t.ctr = 0x02 ∧ t.y = 0 ∧ t.adbits = 0 ∧ t.mode = .dec := by
  decide +kernel

/-- V-I3: 17 bytes of associated data, padded. -/
theorem test_initVfy :
    let t := nextOf (exec (.initVfy [1, 2, 3, 4, 5, 6, 7, 8, 9, 10, 11, 12]
      [0x10, 0x11, 0x12, 0x13, 0x14, 0x15, 0x16, 0x17, 0x18, 0x19, 0x1A, 0x1B, 0x1C, 0x1D, 0x1E, 0x1F, 0x20]) toyReset)
    t.y = 0x12131415161718191A1B1C1D1E1F1031 ∧ t.adbits = 136 ∧ t.mode = .vfy := by decide +kernel

/-- V-N4: a fragment of 15 bytes pending, then 17 bytes complete two blocks. -/
theorem test_next_encrypt :
    let s := { toyOpen .enc with
      ctlen := 15, pb := pendingCells ((blockBytes 0x000102030405060708090A0B0C0D0E0F).take 15), pblen := 15 }
    let t := nextOf (exec (.next (0x0F :: blockBytes 0x101112131415161718191A1B1C1D1E1F)) s)
    t.hr = responseBytes .ok .noFault
        (blockBytes 0xA5A4A7A6A1A0A3A2ADACAFAEA9A8A6AA ++ blockBytes 0xB5B4B7B6B1B0B3B2BDBCBFBEB9B8B5BA) ∧
      t.ctlen = 32 ∧ t.pblen = 0 ∧ t.ctr = 0x0F ∧ t.y = 0x1311171113111F11131117111E1F1F11 := by decide +kernel

/-- V-N7 and V-N8: the same ciphertext decrypted, and verified only. -/
theorem test_next_decrypt_and_verify :
    let c := blockBytes 0xA5A4A7A6A1A0A3A2ADACAFAEA9A8A6AA ++ blockBytes 0xB5B4B7B6B1B0B3B2BDBCBFBEB9B8B5BA
    let t := nextOf (exec (.next c) (toyOpen .dec))
    let u := nextOf (exec (.next c) (toyOpen .vfy))
    t.hr = responseBytes .ok .noFault
        (blockBytes 0x000102030405060708090A0B0C0D0E0F ++ blockBytes 0x101112131415161718191A1B1C1D1E1F) ∧
      t.ctr = 0x0F ∧ t.y = 0x1311171113111F11131117111E1F1F11 ∧ u.hr = responseBytes .ok .noFault [] ∧
      u.ctr = 0x0D ∧ u.y = 0x1311171113111F11131117111E1F1F11 ∧ u.ctlen = 32 := by decide +kernel

/-- V-F3. -/
theorem test_finEnc_toy :
    let t := nextOf (exec .finEnc (toyTail .enc [0x10, 0x11, 0x12, 0x13]))
    t.hr = responseBytes .ok .noFault ([0xB5, 0xB4, 0xB7, 0xB6] ++ tag20) ∧ t.y = 0 ∧ t.phase = .final := by
  decide +kernel

/-- V-F6. -/
theorem test_finEnc_aes :
    (nextOf (exec .finEnc (aesTail .enc [0, 0, 0, 0, 0]))).hr = responseBytes .ok .noFault
      ([0x03, 0x88, 0xDA, 0xCE, 0x60] ++ blockBytes 0x52817A0FBA58D2763A7BABF52695148B) := by decide +kernel

/-- V-D1, V-D2, V-D3: the right tag in both modes, and the last byte wrong. -/
theorem test_finDec_toy :
    (nextOf (exec (.finDec tag20) (toyTail .dec [0xB5, 0xB4, 0xB7, 0xB6]))).hr
        = responseBytes .ok .noFault [0x10, 0x11, 0x12, 0x13] ∧
      (nextOf (exec (.finDec tag20) (toyTail .vfy [0xB5, 0xB4, 0xB7, 0xB6]))).hr = responseBytes .ok .noFault [] ∧
      (nextOf (exec (.finDec (tag20.take 15 ++ [0xB7])) (toyTail .dec [0xB5, 0xB4, 0xB7, 0xB6]))).hr
        = responseBytes .authFail .noFault [] := by decide +kernel

/-- V-D10. -/
theorem test_finDec_aes :
    (nextOf (exec (.finDec (blockBytes 0x52817A0FBA58D2763A7BABF52695148B))
        (aesTail .dec [0x03, 0x88, 0xDA, 0xCE, 0x60]))).hr = responseBytes .ok .noFault [0, 0, 0, 0, 0] ∧
      (nextOf (exec (.finDec (blockBytes 0x52817A0FBA58D2763A7BABF52695148A))
        (aesTail .dec [0x03, 0x88, 0xDA, 0xCE, 0x60]))).hr = responseBytes .authFail .noFault [] := by decide +kernel

/-- V-P4, and V-P26 under `AESK`. -/
theorem test_engDerive :
    (nextOf (exec (.engDerive (beBytes 14 0xA0A1A2A3A4A5A6A7A8A9AAABACAD)) toyReset)).epLog.map Exchange.answer
        = [blockBytes 0x0C0CA2A3A4A5A6A7A8A9AAAB0000000E] ∧
      (nextOf (exec (.engDerive (beBytes 8 0xCAFEBABEFACEDBAD))
        { toyReset with engine := .aes 0xFEFFE9928665731C6D6A8F9467308308 })).epLog.map Exchange.answer
        = [blockBytes 0xC43A83C4C4BADEC4354CA984DB252F7D] := by decide +kernel

/-- V-P6: wraparound with no carry into byte 11; V-P7. -/
theorem test_engInc :
    (nextOf (exec (.engInc 0x010000000000000000000000FFFFFFFF) toyReset)).epLog.map Exchange.answer
        = [blockBytes 0x01000000000000000000000000000000] ∧
      (nextOf (exec (.engInc 0x0102030405060708090A0B0C000000FF) toyReset)).epLog.map Exchange.answer
        = [blockBytes 0x0102030405060708090A0B0C00000100] := by decide +kernel

/-- V-P14. -/
theorem test_engCtr :
    (nextOf (exec (.engCtr 0x0D (List.replicate 32 0)) toyReset)).epLog.map Exchange.answer
      = [blockBytes 0xA5A5A5A5A5A5A5A5A5A5A5A5A5A5A8A5 ++ blockBytes 0xA5A5A5A5A5A5A5A5A5A5A5A5A5A5ABA5 ++
        blockBytes 0x0F] := by decide +kernel

/-- V-P12, and V-P25 under `AES0`. -/
theorem test_engGhash :
    (nextOf (exec (.engGhash 0 (blockBytes 0x000102030405060708090A0B0C0D0E0F ++
        blockBytes 0x101112131415161718191A1B1C1D1E1F)) toyReset)).epLog.map Exchange.answer
        = [blockBytes 0x1311171113111F111311171113111F11] ∧
      (nextOf (exec (.engGhash 0 (blockBytes 0x0388DACE60B6A392F328C2B971B2FE78)) aesReset)).epLog.map Exchange.answer
        = [blockBytes 0x5E2EC746917062882C85B0685353DEB7] := by decide +kernel

/-- V-E13: the request and the answer on EP; V-P22 under `AES0`. -/
theorem test_engEnc :
    (nextOf (exec (.engEnc 0x0C) toyReset)).epLog
        = [⟨[0x05, 0, 0, 0, 0, 0, 0, 0, 0, 0, 0, 0, 0, 0, 0, 0x10, 0, 0, 0, 0, 0, 0, 0, 0, 0, 0, 0, 0, 0, 0, 0, 0x0C],
          blockBytes 0xA5A5A5A5A5A5A5A5A5A5A5A5A5A5A9A5⟩] ∧
      (nextOf (exec (.engEnc 0x01) aesReset)).epLog.map Exchange.answer
        = [blockBytes 0x58E2FCCEFA7E3061367F1D57A4E7455A] := by decide +kernel

/-! ### Faults, reset, and the placed word -/

/-- V-X8, V-X10, V-X3: the order of the checks of FIN_DEC. -/
theorem test_finalise_checks :
    stateOf (exec (.finDec (List.replicate 15 0)) (toyOpen .enc)) = some ((toyOpen .enc).afterFatal .modeMismatch) ∧
      stateOf (exec (.finDec (List.replicate 15 0)) (toyOpen .dec)) = some ((toyOpen .dec).afterFatal .badTagLen) ∧
      stateOf (exec (.finDec (List.replicate 15 0)) toyReset) = some (toyReset.afterFatal .notInitialized) ∧
      stateOf (exec .finEnc (toyOpen .vfy)) = some ((toyOpen .vfy).afterFatal .modeMismatch) := by decide +kernel

/-- V-N6: the rows of the length limit at CTLEN = 68719476700 and at LIMIT. -/
theorem test_length_limit :
    let s := { toyOpen .enc with ctlen := 68719476700, pblen := 12 }
    let u := { toyOpen .enc with ctlen := 68719476704 }
    (nextOf (exec (.next [0, 0, 0, 0]) s)).ctlen = 68719476704 ∧
      (nextOf (exec (.next [0, 0, 0, 0]) s)).hr.length = 32 ∧
      stateOf (exec (.next [0, 0, 0, 0, 0]) s) = some (s.afterFatal .lengthLimit) ∧
      (nextOf (exec (.next []) u)).phase = .active ∧
      stateOf (exec (.next [0]) u) = some (u.afterFatal .lengthLimit) := by decide +kernel

/-- V-X5: a reserved field is looked at before the nonce length; V-X14: an illegal descriptor while FAULTED. -/
theorem test_illegal_step :
    (nextOf (step { toyReset with hc := blockBytes 0x1001000B000000000000000000000000 ++ List.replicate 11 0 ++ [7] })).cause
        = .illegalCommand ∧
      (nextOf (step { toyReset with hc := blockBytes 0x1001000B000000000000000000000000 ++ List.replicate 11 0 ++ [7] })).hc
        = [7] ∧
      (nextOf (step { faulted with hc := blockBytes 0 })).hr = responseBytes .fatal .notInitialized [] := by
  decide +kernel

/-- V-R1, V-R2: reset in the middle of a message with a whole command and a part of one still on HC: neither is run. -/
theorem test_reset_step :
    stateOf (step { toyTail .enc [1, 2, 3, 4] with hc := encode .finEnc ++ [0x20], resets := [⟨0, [0x01]⟩] })
      = some { toyReset with hc := [0x01] } := by decide +kernel

/-- R204: a reset between two queued commands: the first is answered, then the reset is due. -/
theorem test_reset_between_commands :
    stateOf (step { toyReset with hc := encode .tagsize ++ encode .finEnc, resets := [⟨1, []⟩] })
      = some { toyReset with
        hc := encode .finEnc, resets := [⟨0, []⟩], hr := responseBytes .ok .noFault [0x10] } := by decide +kernel

/-- What `step` runs for a placed word of each kind, and that the row is the one named (log 14). -/
theorem test_placed_words :
    decodeTableWord 128 0x11000002000000000000000000000001 = some (.initDec [0, 0] [0]) ∧
      decodeTableWord 128 0x01000000000000000000000000000000 = some .tagsize ∧
      decodeTableWord 128 0x0100000000000000000000000000000C = some (.engDerive zeroNonce) ∧
      decodeTableWord 128 0x02000000000000000000000000000010 = some (.engInc 0) ∧
      decodeTableWord 128 0x03000000000000000000000000000020 = some (.engCtr 0 (List.replicate 16 0)) ∧
      decodeTableWord 128 0x03000000000000000000000000000000 = none ∧
      stateOf (step (State.reset.withFetchWord 128 0x30000000000000000000000000000000))
        = stateOf (exec .finEnc State.reset) ∧
      stateOf (step (toyReset.withFetchWord 128 0x02000000000000000000000000000010))
        = stateOf (exec (.engInc 0) toyReset) := by
  decide +kernel

/-! ### Witnesses: for every statement with hypotheses, data that meet them, clause by clause -/

theorem witness_DecodeOfEncodeIsTheInstruction :
    Instr.wf (.initEnc zeroNonce []) = true ∧ Instr.wf (.engDerive [0]) = true ∧
      Instr.wf (.engCtr 0 (List.replicate 16 0)) = true := by decide

theorem witness_DecodedBytesAreTheEncoding :
    decode .hc (encode (.next [1]) ++ [2]) = .instr (.next [1]) [2] ∧
      decode .ep (encode (.engDerive [1]) ++ [2]) = .instr (.engDerive [1]) [2] := by decide +kernel

theorem witness_HeadersSelectRowsByMaskAndMatch :
    (∃ r ∈ commandMap, (0x10000002000000001FFFFFFFFFFFFFFF : Block) &&& r.mask = r.matchBits) ∧
      (∃ r ∈ commandMap, (0x2000000000000000FFFFFFFFFFFFFFFF : Block) &&& r.mask = r.matchBits) := by decide +kernel

/-- Clauses of R86: `test_illegal_headers` has a header for each; here one runs with payload, in both phases. -/
theorem witness_IllegalDescriptorsRaiseCauseFive :
    commandOf 0x20000001000000000000000000000001 = .error .nonceOperand ∧
      ([5, 6] : List Byte).length = (hdrNlen 0x20000001000000000000000000000001).toNat +
        (hdrDlen 0x20000001000000000000000000000001).toNat ∧
      toyReset.nsize ≠ 0 ∧ toyReset.resetDue = false ∧ toyReset.epPending = [] ∧ toyReset.phase ≠ .faulted ∧
      faulted.resetDue = false ∧ faulted.nsize ≠ 0 ∧ faulted.epPending = [] ∧ faulted.phase = .faulted := by decide +kernel

/-- Nothing on HC, a part of a header, and a header with one payload byte of the two it announces; a reset two steps
away, and none. -/
theorem witness_IncompleteDescriptorWaits :
    let s := { toyReset with
      hc := blockBytes 0xFF000001000000000000000000000001 ++ [5], resets := [⟨2, []⟩] }
    s.nsize ≠ 0 ∧ s.resetDue = false ∧ s.epPending = [] ∧ decode .hc s.hc = .incomplete ∧
      toyReset.resets = [] ∧ toyReset.resetDue = false ∧ decode .hc toyReset.hc = .incomplete ∧
      (List.replicate 15 (0x20 : Byte)).length < 16 := by decide +kernel

theorem witness_ResponseBytesAreTheDescriptor :
    ([1] : List Byte).length < 2 ^ 64 ∧
      responseBytes .ok .noFault [1] ++ [2] = responseBytes .ok .noFault [1] ++ [2] := by decide

/-- The first and the last byte, at registers with one bit set. -/
theorem witness_RegisterBytesAreBigEndian :
    (blockBytes 0x80000000000000000000000000000000)[0]? = some 0x80 ∧ (blockBytes 0x01)[15]? = some 0x01 ∧
      (List.replicate 16 (0 : Byte)).length = 16 := by decide +kernel

theorem witness_StepRunsTheDecodedInstruction :
    toyReset.nsize ≠ 0 ∧ toyReset.resetDue = false ∧ toyReset.epPending = [] ∧
      decode .hc (blockBytes 0x30000000000000000000000000000000) = .instr .finEnc [] ∧
      decode .ep (encode (.engInc 0)) = .instr (.engInc 0) [] ∧ encode (.engInc 0) ≠ [] := by decide +kernel

theorem witness_PlacedWordIsRunByTheNextStep :
    State.reset.nsize ≠ 0 ∧ decodeTableWord 128 0x20000000000000000000000000000001 = some (.next [0]) ∧
      decodeTableWord 128 0x05000000000000000000000000000010 = some (.engEnc 0) := by decide +kernel

/-- FAULTED with a whole command on HC, and with a request on EP. -/
theorem witness_ResetInputRestoresTheResetState :
    let s := { faulted with hc := encode .tagsize, epPending := encode (.engInc 0), resets := [⟨0, []⟩, ⟨3, [1]⟩] }
    s.nsize ≠ 0 ∧ s.resets = ⟨0, []⟩ :: [⟨3, [1]⟩] := by decide +kernel

/-- A step with a reset one step away, and a step that is the reset. -/
theorem witness_ResetMayFallBetweenAnyTwoSteps :
    step { toyReset with resets := [⟨1, []⟩] } = .next { toyReset with resets := [⟨0, []⟩] } ∧
      step { toyReset with resets := [⟨0, []⟩] } = .next toyReset ∧
      ({ toyReset with resets := [⟨1, []⟩] } : State).resets = ⟨0 + 1, []⟩ :: [] :=
  ⟨eq_next (by decide +kernel), eq_next (by decide +kernel), rfl⟩

/-- Both sides of the equivalence occur. -/
theorem witness_StepAnswersButForTheTwoStops :
    step State.reset = .next State.reset ∧ step { State.reset with nsize := 0 } = .refused .zeroNonceSize ∧
      step { State.reset with epPending := List.replicate 16 0 } = .fault .malformedEngineRequest ∧
      step { State.reset with epPending := List.replicate 16 0, resets := [⟨0, []⟩] } = .next State.reset :=
  ⟨eq_next (by decide +kernel), rfl, rfl, eq_next (by decide +kernel)⟩

theorem witness_TagsizeAnswersSixteen :
    toyReset.phase ≠ .faulted ∧ faulted.phase = .faulted ∧ hdrOp 0x01010000000000000000000000000000 = 0x01 ∧
      commandOf 0x01000000000000000000000000000000 = .ok .tagsize := by decide +kernel

/-- From UNINIT and from ACTIVE, the right length and one byte less and more. -/
theorem witness_InitOpensAMessage :
    toyReset.phase ≠ .faulted ∧ (toyOpen .enc).phase ≠ .faulted ∧ ([0xAA] : List Byte).length < 2 ^ 61 ∧
      zeroNonce.length = toyReset.nsize.toNat ∧ (List.replicate 11 (0 : Byte)).length ≠ toyReset.nsize.toNat ∧
      (List.replicate 13 (0 : Byte)).length ≠ toyReset.nsize.toNat := by decide

theorem witness_WrongNonceLengthIsFatal :
    toyReset.phase ≠ .faulted ∧ ([] : List Byte).length ≠ toyReset.nsize.toNat := by decide

/-- Both clauses (`n > 0`, `n = 0`) of the three paths, at the boundary: 15 bytes pending and one more, or none. -/
theorem witness_NextEncryptsThenFolds :
    let s := { toyOpen .enc with ctlen := 15, pblen := 15 }
    s.phase = .active ∧ s.mode = .enc ∧ s.ctlen.toNat + ([1] : List Byte).length ≤ Config.limit ∧
      16 * ((s.pending ++ [1]).length / 16) > 0 ∧ 16 * ((s.pending ++ []).length / 16) = 0 := by decide +kernel

theorem witness_NextFoldsThenDecrypts :
    let s := { toyOpen .dec with ctlen := 15, pblen := 15 }
    s.phase = .active ∧ s.mode = .dec ∧ s.ctlen.toNat + ([1] : List Byte).length ≤ Config.limit ∧
      16 * ((s.pending ++ [1]).length / 16) > 0 ∧ 16 * ((s.pending ++ []).length / 16) = 0 := by decide +kernel

theorem witness_NextVerifyOnlyFolds :
    let s := { toyOpen .vfy with ctlen := 15, pblen := 15 }
    s.phase = .active ∧ s.mode = .vfy ∧ s.ctlen.toNat + ([1] : List Byte).length ≤ Config.limit ∧
      16 * ((s.pending ++ [1]).length / 16) > 0 ∧ 16 * ((s.pending ++ []).length / 16) = 0 := by decide +kernel

theorem witness_NextLeavesTheRestPending :
    let s := { toyOpen .dec with ctlen := 14, pblen := 14 }
    s.phase = .active ∧ s.ctlen.toNat + ([1] : List Byte).length ≤ Config.limit ∧
      s.pblen.toNat + ([1] : List Byte).length < 16 := by decide +kernel

theorem witness_NextOutputIsWholeBlocks :
    (toyOpen .vfy).phase = .active ∧ (toyOpen .vfy).mode = .vfy ∧ (toyOpen .dec).mode ≠ .vfy ∧
      (toyOpen .vfy).ctlen.toNat + (List.replicate 17 (0 : Byte)).length ≤ Config.limit := by decide +kernel

/-- At LIMIT and one beyond, with one byte and with none, and with a whole message in one fragment (V-N6). -/
theorem witness_LengthLimitIsExact :
    (toyOpen .enc).phase = .active ∧
      ({ toyOpen .enc with ctlen := 68719476704 } : State).ctlen.toNat + ([1] : List Byte).length > 68719476704 ∧
      ({ toyOpen .enc with ctlen := 68719476703 } : State).ctlen.toNat + ([1] : List Byte).length ≤ 68719476704 ∧
      ({ toyOpen .enc with ctlen := 68719476704 } : State).ctlen.toNat + ([] : List Byte).length ≤ 68719476704 := by
  decide +kernel

theorem witness_EmptyFragmentChangesNothing :
    (toyTail .enc [1, 2, 3, 4]).phase = .active ∧ (toyTail .enc [1, 2, 3, 4]).ctlen.toNat ≤ Config.limit ∧
      (toyTail .enc [1, 2, 3, 4]).pb = pendingCells (toyTail .enc [1, 2, 3, 4]).pending := by decide +kernel

theorem witness_FinEncSealsTheMessage :
    (toyTail .enc [1, 2, 3, 4]).phase = .active ∧ (toyTail .enc [1, 2, 3, 4]).mode = .enc ∧
      (toyTail .enc [1, 2, 3, 4]).pblen ≠ 0 ∧ (toyOpen .enc).phase = .active ∧ (toyOpen .enc).mode = .enc ∧
      (toyOpen .enc).pblen = 0 := by decide

/-- The hypotheses with the right tag (V-D1) and with a wrong one (V-D3). -/
theorem witness_FinDecOpensTheMessage :
    let s := toyTail .dec [0xB5, 0xB4, 0xB7, 0xB6]
    let tag := blockBytes (engGhash s.engine (engGhash s.engine s.y (pad16 s.pending))
      (beBytes 8 s.adbits.toNat ++ beBytes 8 (8 * s.ctlen.toNat)) ^^^ s.tm)
    s.phase = .active ∧ s.mode = .dec ∧ tag20.length = 16 ∧ tag20 = tag ∧
      (List.replicate 16 (0 : Byte)).length = 16 ∧ List.replicate 16 0 ≠ tag := by decide +kernel

theorem witness_FinDecVerifiesTheMessage :
    let s := toyTail .vfy [0xB5, 0xB4, 0xB7, 0xB6]
    let tag := blockBytes (engGhash s.engine (engGhash s.engine s.y (pad16 s.pending))
      (beBytes 8 s.adbits.toNat ++ beBytes 8 (8 * s.ctlen.toNat)) ^^^ s.tm)
    s.phase = .active ∧ s.mode = .vfy ∧ tag20.length = 16 ∧ tag20 = tag ∧
      (List.replicate 16 (0 : Byte)).length = 16 ∧ List.replicate 16 0 ≠ tag := by decide +kernel

/-- One state for each clause, with tags of 15 and 17 bytes for the last. -/
theorem witness_FinaliseLegality :
    toyReset.phase ≠ .faulted ∧ toyReset.phase ≠ .active ∧ (toyOpen .dec).phase = .active ∧
      (toyOpen .dec).mode ≠ .enc ∧ (toyOpen .enc).phase = .active ∧ (toyOpen .enc).mode = .enc ∧
      (List.replicate 15 (0 : Byte)).length ≠ 16 ∧ (List.replicate 17 (0 : Byte)).length ≠ 16 := by decide

/-- V-D8: values that differ in bit 7 of byte 0 only, and in bit 0 of byte 15 only. -/
theorem witness_CtEqualIsEquality :
    (blockBytes 0).length = 16 ∧ ctEqual (blockBytes 0) (blockBytes 0) = true ∧
      ctEqual (blockBytes 0) (blockBytes 0x80000000000000000000000000000000) = false ∧
      ctEqual (blockBytes 0) (blockBytes 0x01) = false := by decide +kernel

theorem witness_FinaliseZeroises :
    (toyOpen .enc).phase = .active ∧ (toyOpen .enc).mode = .enc ∧ (toyOpen .vfy).phase = .active ∧
      (toyOpen .vfy).mode ≠ .enc ∧ tag20.length = 16 := by decide

theorem witness_NotInitializedOutsideActive :
    toyReset.phase = .uninit ∧ ({ toyReset with phase := .final } : State).phase = .final := by decide

theorem witness_FaultEntryChangesOnlyCauseAndPhase :
    (Instr.channel (.next [])) = .hc ∧ toyReset.phase ≠ .faulted ∧
      exec (.next []) toyReset = .next (toyReset.afterFatal .notInitialized) ∧
      (toyReset.afterFatal .notInitialized).phase = .faulted ∧ illegalWaits.nsize ≠ 0 ∧
      illegalWaits.resetDue = false ∧ illegalWaits.epPending = [] ∧ illegalWaits.phase ≠ .faulted ∧
      decode .hc illegalWaits.hc = .illegal .reservedOpcode [7] :=
  ⟨rfl, by decide, eq_next (by decide +kernel), rfl, by decide, rfl, rfl, by decide, by decide +kernel⟩

/-- The three clauses: a command, an illegal descriptor, and a step that leaves by reset. -/
theorem witness_FaultedIsStickyUntilReset :
    Instr.tagsize.channel = .hc ∧ faulted.phase = .faulted ∧ faulted.nsize ≠ 0 ∧ faulted.resetDue = false ∧
      faulted.epPending = [] ∧ decode .hc (blockBytes 0) = .illegal .reservedOpcode [] ∧
      step { faulted with resets := [⟨0, []⟩] } = .next toyReset :=
  ⟨rfl, rfl, by decide, rfl, rfl, by decide +kernel, eq_next (by decide +kernel)⟩

theorem witness_FirstFailingCheckDecides :
    firstFailing (.next []) toyReset = some .notInitialized ∧ toyReset.phase ≠ .faulted ∧
      firstFailing (.next []) (toyOpen .enc) = none ∧ (toyOpen .enc).phase ≠ .faulted ∧
      faulted.phase = .faulted ∧ (Instr.channel (.next [])) = .hc ∧ illegalWaits.nsize ≠ 0 ∧
      illegalWaits.resetDue = false ∧ illegalWaits.epPending = [] ∧ decode .hc illegalWaits.hc = .illegal .reservedOpcode [7] := by decide +kernel

/-- A row of the table that moves, one that faults, and the FAULTED row. -/
theorem witness_PhaseTransitionTable :
    Instr.finEnc.channel = .hc ∧ firstFailing .finEnc (toyOpen .enc) = none ∧
      phaseAfter .finEnc (toyOpen .enc).phase = .final ∧ firstFailing .finEnc toyReset = some .notInitialized ∧
      faulted.phase = .faulted ∧ illegalWaits.nsize ≠ 0 ∧ illegalWaits.resetDue = false ∧
      illegalWaits.epPending = [] ∧ decode .hc illegalWaits.hc = .illegal .reservedOpcode [7] := by decide +kernel

/-- A message just opened, with a TAGSIZE and a partial NEXT still to come. -/
def opened : State :=
  ({ toyReset with hc := encode .tagsize ++ [0x20] } : State).afterInit .enc zeroNonce [0xAA]

theorem opened_inMessage : opened.InMessage zeroNonce [0xAA] [] :=
  afterInit_inMessage _ _ _ _ (by decide) (by decide)

theorem witness_EveryStepKeepsTheInvariant :
    opened.Inv ∧ opened.phase = .active ∧ ∃ t, step opened = .next t := by
  refine ⟨⟨by decide, rfl, by decide +kernel, by decide, fun h => ?_, fun _ => ⟨_, _, _, opened_inMessage⟩⟩, rfl,
    nextOf (step opened), eq_next (by decide +kernel)⟩
  rcases h with h | h <;> cases h

theorem witness_NoStepChangesNsizeOrEngine :
    step { toyReset with hc := encode .tagsize } = .next (toyReset.respond .ok .noFault [16]) :=
  eq_next (by decide +kernel)

theorem witness_OneResponsePerCommand :
    (toyReset.cause ≠ .noFault ↔ toyReset.phase = .faulted) ∧ (faulted.cause ≠ .noFault ↔ faulted.phase = .faulted) ∧
      Instr.tagsize.channel = .hc ∧ exec .tagsize toyReset = .next (toyReset.respond .ok .noFault [16]) :=
  ⟨by decide, by decide, rfl, eq_next (by decide +kernel)⟩

theorem witness_MessageConstantsAreFixed :
    (Instr.channel (.next [1])) = .hc ∧ (Instr.opcode (.next [1])).isInit = false ∧ (toyOpen .enc).phase = .active ∧
      (nextOf (exec (.next [1]) (toyOpen .enc))).phase = .active ∧
      exec (.next [1]) (toyOpen .enc) = .next (nextOf (exec (.next [1]) (toyOpen .enc))) :=
  ⟨rfl, rfl, rfl, by decide +kernel, eq_next (by decide +kernel)⟩

theorem witness_EngineSeesWholeBlocksOnly :
    toyReset.nsize ≠ 0 ∧ Instr.channel (.initEnc zeroNonce [1]) = .hc ∧ Instr.wf (.initEnc zeroNonce [1]) = true ∧
      exec (.initEnc zeroNonce [1]) toyReset = .next (nextOf (exec (.initEnc zeroNonce [1]) toyReset)) ∧
      (nextOf (exec (.initEnc zeroNonce [1]) toyReset)).epLog.length = 4 :=
  ⟨by decide, rfl, by decide, eq_next (by decide +kernel), by decide +kernel⟩

theorem witness_VerifyOnlyNeverMakesKeystream :
    (toyOpen .vfy).phase = .active ∧ (toyOpen .vfy).mode = .vfy ∧
      exec (.next (blockBytes 0)) (toyOpen .vfy) = .next (nextOf (exec (.next (blockBytes 0)) (toyOpen .vfy))) ∧
      (nextOf (exec (.next (blockBytes 0)) (toyOpen .vfy))).epLog.length = 1 :=
  ⟨rfl, rfl, eq_next (by decide +kernel), by decide +kernel⟩

theorem witness_NextExtendsTheMessage :
    opened.phase = .active ∧ opened.InMessage zeroNonce [0xAA] [] ∧
      ([] : List Byte).length + ([1] : List Byte).length ≤ Config.limit :=
  ⟨rfl, opened_inMessage, by decide⟩

theorem witness_FragmentationDoesNotMatter :
    opened.Inv ∧ opened.phase = .active ∧
      ([[1], [], [2, 3]] : List (List Byte)).flatten = ([[1, 2], [3]] : List (List Byte)).flatten ∧
      opened.ctlen.toNat + ([[1], [], [2, 3]] : List (List Byte)).flatten.length ≤ Config.limit :=
  ⟨witness_EveryStepKeepsTheInvariant.1, rfl, by decide, by decide +kernel⟩

theorem witness_EncryptionIsOneShotGcm :
    toyReset.phase ≠ .faulted ∧ zeroNonce.length = toyReset.nsize.toNat ∧ ([0xAA] : List Byte).length < 2 ^ 61 ∧
      ([[1], [], [2, 3]] : List (List Byte)).flatten.length ≤ Config.limit := by decide +kernel

/-- Twenty bytes and the tag of V-D1 match, sixteen zero bytes do not. -/
theorem witness_DecryptionIsOneShotGcm :
    let c := blockBytes 0xA5A4A7A6A1A0A3A2ADACAFAEA9A8A6AA ++ [0xB5, 0xB4, 0xB7, 0xB6]
    toyReset.phase ≠ .faulted ∧ zeroNonce.length = toyReset.nsize.toNat ∧ ([] : List Byte).length < 2 ^ 61 ∧
      [c].flatten.length ≤ Config.limit ∧ tag20.length = 16 ∧ tag20 = blockBytes (gcmTag .toy zeroNonce [] c) ∧
      List.replicate 16 0 ≠ blockBytes (gcmTag .toy zeroNonce [] c) := by decide +kernel

theorem witness_VerificationIsOneShotGcm :
    let c := blockBytes 0xA5A4A7A6A1A0A3A2ADACAFAEA9A8A6AA ++ [0xB5, 0xB4, 0xB7, 0xB6]
    (toyOpen .enc).phase ≠ .faulted ∧ zeroNonce.length = (toyOpen .enc).nsize.toNat ∧
      ([] : List Byte).length < 2 ^ 61 ∧ [c].flatten.length ≤ Config.limit ∧ tag20.length = 16 ∧
      tag20 = blockBytes (gcmTag .toy zeroNonce [] c) ∧
      List.replicate 16 0 ≠ blockBytes (gcmTag .toy zeroNonce [] c) := by decide +kernel

/-- Two blocks of one engine; the ciphertext of V-F3 is that of its plaintext, the premise of the second half. -/
theorem witness_DecryptionUndoesEncryption :
    toyReset.phase ≠ .faulted ∧ (toyOpen .vfy).phase ≠ .faulted ∧ (toyOpen .vfy).engine = toyReset.engine ∧
      (toyOpen .vfy).nsize = toyReset.nsize ∧ zeroNonce.length = toyReset.nsize.toNat ∧
      ([0xAA] : List Byte).length < 2 ^ 61 ∧ ([[1], [2, 3]] : List (List Byte)).flatten.length ≤ Config.limit ∧
      gcmCipher .toy zeroNonce (blockBytes 0x000102030405060708090A0B0C0D0E0F ++ [0x10, 0x11, 0x12, 0x13])
        = [blockBytes 0xA5A4A7A6A1A0A3A2ADACAFAEA9A8A6AA, [0xB5, 0xB4, 0xB7, 0xB6]].flatten := by decide +kernel

theorem witness_EngineLawsHold :
    (blockBytes 0).length % 16 = 0 ∧ (blockBytes 0).length = 16 ∧ (blockBytes 0 ++ blockBytes 1).length % 16 = 0 := by
  decide +kernel

/-- The bounds of the number of increments. -/
theorem witness_IncrementIsLowThirtyTwoBits : 0 < 1 ∧ 1 < 2 ^ 32 ∧ 0 < 2 ^ 32 - 1 ∧ 2 ^ 32 - 1 < 2 ^ 32 := by decide

end Sys2Proof.Tests
end

section
/-! PROOFS. The family 10_state.md. First what a command can do to the state, said once as `CommandEffect`, and what a
step does in each situation; then the invariant, one lemma for each effect; then the obligations. -/

namespace Sys2Proof.Proofs

open Sys2Proof.Machine Sys2Proof.Laws

/-! ### The checks of a command, and what it does when one fails (60_exceptions.md R178) -/

/-- A failing check raises a real cause: every branch of `firstFailing` that answers a cause names one of the six. -/
theorem firstFailing_ne_noFault {i : Instr} {s : State} {c : Cause} (h : firstFailing i s = some c) :
    c ≠ .noFault := by
  cases i <;> simp only [firstFailing] at h <;> (try split_ifs at h) <;> cases h <;> decide

/-- A command while FAULTED is answered with the latched cause. -/
theorem exec_faulted {s : State} {i : Instr} (hc : i.channel = .hc) (h : s.phase = .faulted) :
    exec i s = .next s.afterLatched := by
  cases i with
  | tagsize => exact unlessFaulted_faulted h _
  | initEnc n a => exact unlessFaulted_faulted h _
  | initDec n a => exact unlessFaulted_faulted h _
  | initVfy n a => exact unlessFaulted_faulted h _
  | next d => exact unlessFaulted_faulted h _
  | finEnc => exact unlessFaulted_faulted h _
  | finDec tag => exact unlessFaulted_faulted h _
  | engDerive n => cases hc
  | engInc c => cases hc
  | engCtr c d => cases hc
  | engGhash y d => cases hc
  | engEnc b => cases hc

/-- INIT_* has one check of its own, that of the nonce length, the same in its three modes. -/
theorem initWith_firstFailing {m : Mode} {n a : List Byte} {s : State} {c : Cause} (h : s.phase ≠ .faulted)
    (hf : firstFailing (.initEnc n a) s = some c) : initWith m n a s = .next (s.afterFatal c) := by
  simp only [firstFailing] at hf
  split_ifs at hf with hn
  cases hf
  exact initWith_badNonce h hn

/-- The first check that fails decides: its cause is raised and nothing else happens. -/
theorem exec_firstFailing {s : State} {i : Instr} {c : Cause} (h : s.phase ≠ .faulted)
    (hf : firstFailing i s = some c) : exec i s = .next (s.afterFatal c) := by
  cases i with
  | initEnc n a => exact initWith_firstFailing h hf
  | initDec n a => exact initWith_firstFailing h hf
  | initVfy n a => exact initWith_firstFailing h hf
  | next d =>
    simp only [firstFailing] at hf
    split_ifs at hf with hp hl <;> cases hf <;> simp only [exec, execNext, unlessFaulted_not h]
    · rw [if_pos hp, raiseFatal_eq]
    · rw [if_neg hp, if_pos (overLimit_true hl), raiseFatal_eq]
  | finEnc =>
    simp only [firstFailing] at hf
    split_ifs at hf with hp hm <;> cases hf <;> simp only [exec, execFinEnc, unlessFaulted_not h]
    · rw [if_pos hp, raiseFatal_eq]
    · rw [if_neg hp, if_pos hm, raiseFatal_eq]
  | finDec tag =>
    simp only [firstFailing] at hf
    split_ifs at hf with hp hm ht <;> cases hf <;> simp only [exec, execFinDec, unlessFaulted_not h]
    · rw [if_pos hp, raiseFatal_eq]
    · rw [if_neg hp, if_pos hm, raiseFatal_eq]
    · rw [if_neg hp, if_neg hm, if_pos (by exact ht), raiseFatal_eq]
  | tagsize => cases hf
  | engDerive n => cases hf
  | engInc c => cases hf
  | engCtr c d => cases hf
  | engGhash y d => cases hf
  | engEnc b => cases hf

/-- An illegal descriptor: cause 5, or the latched cause while FAULTED (30_encoding.md R86, 60_exceptions.md R177). -/
theorem illegalCommand_eq (s : State) :
    illegalCommand s = .next (if s.phase = .faulted then s.afterLatched else s.afterFatal .illegalCommand) := by
  by_cases h : s.phase = .faulted
  · rw [illegalCommand, unlessFaulted_faulted h, if_pos h]
  · rw [illegalCommand, unlessFaulted_not h, if_neg h, raiseFatal_eq]

/-! ### The effect of a command, said once -/

/-- The instruction opens a message in mode `m` with this nonce and associated data. -/
def Opens (i : Instr) (m : Mode) (n a : List Byte) : Prop :=
  i = .initEnc n a ∧ m = .enc ∨ i = .initDec n a ∧ m = .dec ∨ i = .initVfy n a ∧ m = .vfy

theorem Opens.isInit {i : Instr} {m : Mode} {n a : List Byte} (h : Opens i m n a) : i.opcode.isInit = true := by
  rcases h with ⟨rfl, _⟩ | ⟨rfl, _⟩ | ⟨rfl, _⟩ <;> rfl

theorem Opens.phaseAfter {i : Instr} {m : Mode} {n a : List Byte} (h : Opens i m n a) (p : Phase) :
    phaseAfter i p = .active := by
  rcases h with ⟨rfl, _⟩ | ⟨rfl, _⟩ | ⟨rfl, _⟩ <;> rfl

theorem Opens.ad_length {i : Instr} {m : Mode} {n a : List Byte} (h : Opens i m n a) (hw : i.wf = true) :
    a.length < 2 ^ 61 := by
  rcases h with ⟨rfl, _⟩ | ⟨rfl, _⟩ | ⟨rfl, _⟩ <;>
    · simp only [Instr.wf, Bool.and_eq_true, decide_eq_true_eq] at hw
      exact hw.2

/-- What the command `i` can do to `s`: answer the latched cause, raise the cause of the first failing check, or, with
no check failing, the effect of its own rule. -/
inductive CommandEffect (s : State) (i : Instr) : State → Prop
  | latched : s.phase = .faulted → CommandEffect s i s.afterLatched
  | fatal {c : Cause} : s.phase ≠ .faulted → firstFailing i s = some c → CommandEffect s i (s.afterFatal c)
  | tagsize : s.phase ≠ .faulted → firstFailing i s = none → i = .tagsize →
      CommandEffect s i (s.respond .ok .noFault [16])
  | init {m : Mode} {n a : List Byte} : s.phase ≠ .faulted → firstFailing i s = none → Opens i m n a →
      n.length = s.nsize.toNat → CommandEffect s i (s.afterInit m n a)
  | next {d : List Byte} : s.phase = .active → firstFailing i s = none → i = .next d →
      s.ctlen.toNat + d.length ≤ Config.limit → CommandEffect s i (takeFragment d s)
  | close {r : List Byte} {asked : List (Instr × List Byte)} : s.phase = .active → firstFailing i s = none →
      (i = .finEnc ∨ ∃ tag, i = .finDec tag) → CommandEffect s i (s.afterClose r asked)

/-- An accepted FIN_ENC closes the message. -/
theorem closeSeal_eq_afterClose (s : State) : ∃ r asked, closeSeal s = s.afterClose r asked := by
  by_cases h : s.pblen = 0
  · exact ⟨_, _, closeSeal_noTail h⟩
  · exact ⟨_, _, closeSeal_tail h⟩

/-- Every command answers a next state, and it is one of the effects. -/
theorem exec_effect (s : State) {i : Instr} (hc : i.channel = .hc) :
    ∃ t, exec i s = .next t ∧ CommandEffect s i t := by
  by_cases h : s.phase = .faulted
  · exact ⟨_, exec_faulted hc h, .latched h⟩
  cases hf : firstFailing i s with
  | some c => exact ⟨_, exec_firstFailing h hf, .fatal h hf⟩
  | none =>
    rcases exec_accepted s i hc h hf with ⟨hi, e⟩ | ⟨m, n, a, hi, hn, e⟩ | ⟨d, hi, hp, hl, e⟩ | ⟨hi, hp, _, e⟩ |
      ⟨tag, hi, hp, _, ht, e⟩
    · exact ⟨_, e, .tagsize h hf hi⟩
    · exact ⟨_, e, .init h hf hi hn⟩
    · exact ⟨_, e, .next hp hf hi hl⟩
    · obtain ⟨r, asked, hr⟩ := closeSeal_eq_afterClose s
      exact ⟨_, e.trans (congrArg _ hr), .close hp hf (.inl hi)⟩
    · exact ⟨_, e.trans (congrArg _ (closeOpen_eq tag s ht)), .close hp hf (.inr ⟨tag, hi⟩)⟩

/-- The inversion of `exec` on a command. -/
theorem effect_of_exec {s t : State} {i : Instr} (hc : i.channel = .hc) (h : exec i s = .next t) :
    CommandEffect s i t := by
  obtain ⟨u, hu, he⟩ := exec_effect s hc
  rw [hu] at h
  cases h
  exact he

/-- PHASE and CAUSE after each effect: the entry of the table of 10_state.md R31. -/
theorem CommandEffect.phase_cause {s t : State} {i : Instr} (h : CommandEffect s i t) :
    (t.phase, t.cause) =
      (if s.phase = .faulted then (.faulted, s.cause)
       else match firstFailing i s with
        | some c => (.faulted, c)
        | none => (phaseAfter i s.phase, s.cause)) := by
  cases h with
  | latched hp => rw [if_pos hp, ← hp]; rfl
  | fatal hp hf => rw [if_neg hp, hf]; rfl
  | tagsize hp hf hi => rw [if_neg hp, hf, hi]; rfl
  | init hp hf hi _ => rw [if_neg hp, hf, hi.phaseAfter]; rfl
  | @next d hp hf hi _ =>
    obtain ⟨-, -, -, -, -, -, -, -, -, hph, hca, -⟩ := takeFragment_spec s d
    rw [if_neg (by simp [hp]), hf, hph, hca, hp, hi]; rfl
  | close hp hf hi =>
    rw [if_neg (by simp [hp]), hf]
    rcases hi with rfl | ⟨tag, rfl⟩ <;> rfl

/-- A command leaves NSIZE, the engine and the host's inputs alone. -/
theorem CommandEffect.sameSurroundings {s t : State} {i : Instr} (h : CommandEffect s i t) : SameSurroundings s t := by
  cases h with
  | latched => exact ⟨rfl, rfl, rfl, rfl, rfl⟩
  | fatal => exact ⟨rfl, rfl, rfl, rfl, rfl⟩
  | tagsize => exact ⟨rfl, rfl, rfl, rfl, rfl⟩
  | init => exact ⟨rfl, rfl, rfl, rfl, rfl⟩
  | @next d =>
    obtain ⟨-, -, -, -, -, -, -, -, -, -, -, hss⟩ := takeFragment_spec s d
    exact hss
  | close => exact ⟨rfl, rfl, rfl, rfl, rfl⟩

/-- No instruction of either channel changes NSIZE, the engine or the host's inputs. -/
theorem exec_sameSurroundings {s t : State} {i : Instr} (h : exec i s = .next t) : SameSurroundings s t := by
  cases hc : i.channel with
  | hc => exact (effect_of_exec hc h).sameSurroundings
  | ep =>
    obtain ⟨l, rfl⟩ := engineRequest_frame s t i hc h
    exact ⟨rfl, rfl, rfl, rfl, rfl⟩

/-! ### A step, by what it finds -/

/-- The step that finds the reset asserted. -/
theorem step_reset {s : State} {b : List Byte} {l : List ResetInput} (hn : s.nsize ≠ 0)
    (h : s.resets = ⟨0, b⟩ :: l) : step s = .next (s.applyReset b l) := by
  rw [step, if_neg hn, fetch_of_due h]

/-- The step that finds no whole descriptor on HC. -/
theorem step_wait_hc {s : State} (hn : s.nsize ≠ 0) (hd : s.resetDue = false) (he : s.epPending = [])
    (h : decode .hc s.hc = .incomplete) : step s = .next s.tick := by
  rw [step, if_neg hn, fetch_of_not_due hd, fetchChannels_hc (by exact he)]
  simp only [tick_hc, h]

/-- The step that finds an illegal descriptor on HC. -/
theorem step_illegal {s : State} {why : Illegal} {rest : List Byte} (hn : s.nsize ≠ 0) (hd : s.resetDue = false)
    (he : s.epPending = []) (h : decode .hc s.hc = .illegal why rest) :
    step s = illegalCommand { s.tick with hc := rest } := by
  rw [step, if_neg hn, fetch_of_not_due hd, fetchChannels_hc (by exact he)]
  simp only [tick_hc, h]

/-- The step that finds a command on HC. -/
theorem step_command {s : State} {i : Instr} {rest : List Byte} (hn : s.nsize ≠ 0) (hd : s.resetDue = false)
    (he : s.epPending = []) (h : decode .hc s.hc = .instr i rest) :
    step s = exec i { s.tick with hc := rest } := by
  rw [step, if_neg hn, fetch_of_not_due hd, fetchChannels_hc (by exact he)]
  simp only [tick_hc, h]

/-- The step that finds a part of a request on EP. -/
theorem step_wait_ep {s : State} (hn : s.nsize ≠ 0) (hd : s.resetDue = false) (he : s.epPending ≠ [])
    (h : decode .ep s.epPending = .incomplete) : step s = .next s.tick := by
  rw [step, if_neg hn, fetch_of_not_due hd, fetchChannels_ep (by exact he)]
  simp only [tick_epPending, h]

/-- The step that finds a request on EP. -/
theorem step_request {s : State} {i : Instr} {rest : List Byte} (hn : s.nsize ≠ 0) (hd : s.resetDue = false)
    (he : s.epPending ≠ []) (h : decode .ep s.epPending = .instr i rest) :
    step s = exec i { s.tick with epPending := rest } := by
  rw [step, if_neg hn, fetch_of_not_due hd, fetchChannels_ep (by exact he)]
  simp only [tick_epPending, h]

/-! ### What the decoder yields -/

theorem decodeFramed_eq_ok {ch : Channel} {h : Block} {p : List Byte} {i : Instr} (hd : decodeFramed ch h p = .ok i) :
    ∃ op, selectRow ch h = .ok op ∧ i = operands op h p := by
  unfold decodeFramed at hd
  split at hd
  · cases hd
  · cases hd
    exact ⟨_, by assumption, rfl⟩

/-- A decoded instruction is well-formed and belongs to the channel it was read from. -/
theorem wf_of_decode {ch : Channel} {bs rest : List Byte} {i : Instr} (h : decode ch bs = .instr i rest) :
    i.wf = true ∧ i.channel = ch := by
  unfold decode at h
  simp only at h
  split_ifs at h with h16 hlen
  split at h
  · cases h
  · rename_i j hd
    cases h
    obtain ⟨op, hr, rfl⟩ := decodeFramed_eq_ok hd
    have hp : ((bs.drop 16).take (payloadLength ch (bytesBlock (bs.take 16)))).length =
        payloadLength ch (bytesBlock (bs.take 16)) := by rw [List.length_take]; omega
    cases ch with
    | hc =>
      obtain ⟨hw, hch, -, -⟩ := decoded_command hr hp
      exact ⟨hw, hch⟩
    | ep =>
      obtain ⟨hw, hch, -, -⟩ := decoded_request hr hp
      exact ⟨hw, hch⟩

/-! ### The invariant, effect by effect -/

/-- An empty Pending Buffer with zero cells is canonical (10_state.md R28). -/
theorem canonical_of_empty {s : State} (hpb : s.pb = Vector.replicate 15 0) (hlen : s.pblen = 0) :
    s.pb = pendingCells s.pending := by
  rw [(pblen_eq_zero_iff s).1 hlen, pendingCells_nil, hpb]

/-- In a state of the invariant, CAUSE is 0 outside FAULTED. -/
theorem cause_eq_noFault {s : State} (h : s.Inv) (hp : s.phase ≠ .faulted) : s.cause = .noFault := by
  by_contra hc
  exact hp (h.cause_iff.1 hc)

/-- A message in progress is a matter of the data registers, NSIZE and the engine. -/
theorem inMessage_of_sameData {s t : State} {n a x : List Byte} (h : s.InMessage n a x) (hd : SameData s t)
    (hn : t.nsize = s.nsize) (he : t.engine = s.engine) : t.InMessage n a x := by
  obtain ⟨hy, had, hct, hctr, htm, hpb, hlen, hm⟩ := hd
  exact
    { nonce_length := hn ▸ h.nonce_length
      ad_length := h.ad_length
      within := h.within
      tm := by rw [htm, he]; exact h.tm
      adbits := had ▸ h.adbits
      ctlen := hct ▸ h.ctlen
      pending := by rw [pending_congr hpb hlen]; exact h.pending
      ctr := by rw [hctr, hm, he]; exact h.ctr
      y := by rw [hy, hm, he]; exact h.y }

/-- The invariant is a matter of the registers and of what stands on EP. -/
theorem inv_of_sameRegisters {s t : State} (h : s.Inv) (hd : SameData s t) (hn : t.nsize = s.nsize)
    (he : t.engine = s.engine) (hp : t.phase = s.phase) (hc : t.cause = s.cause) (hep : t.epPending = s.epPending) :
    t.Inv where
  nsize_pos := hn ▸ h.nsize_pos
  ep_idle := hep.trans h.ep_idle
  canonical := by
    obtain ⟨-, -, -, -, -, hpb, hlen, -⟩ := hd
    rw [pending_congr hpb hlen, hpb]
    exact h.canonical
  cause_iff := by rw [hc, hp]; exact h.cause_iff
  idle_zero hidle := by
    obtain ⟨z1, z2, z3, z4, z5, z6, z7, z8⟩ := h.idle_zero (hp ▸ hidle)
    obtain ⟨e1, e2, e3, e4, e5, e6, e7, e8⟩ := hd
    exact ⟨e1.trans z1, e2.trans z2, e3.trans z3, e4.trans z4, e5.trans z5, e6.trans z6, e7.trans z7, e8.trans z8⟩
  message hact := by
    obtain ⟨n, a, x, hm⟩ := h.message (hp ▸ hact)
    exact ⟨n, a, x, inMessage_of_sameData hm hd hn he⟩

theorem sameData_refl (s : State) : SameData s s := ⟨rfl, rfl, rfl, rfl, rfl, rfl, rfl, rfl⟩

/-- Reset restores the invariant whatever was before it. -/
theorem applyReset_inv {s : State} (hn : s.nsize ≠ 0) (b : List Byte) (l : List ResetInput) :
    (s.applyReset b l).Inv where
  nsize_pos := hn
  ep_idle := rfl
  canonical := canonical_of_empty rfl rfl
  cause_iff := by simp
  idle_zero _ := ⟨rfl, rfl, rfl, rfl, rfl, rfl, rfl, rfl⟩
  message h := by cases h

theorem tick_inv {s : State} (h : s.Inv) : s.tick.Inv := inv_of_sameRegisters h (sameData_refl s) rfl rfl rfl rfl rfl

/-- Taking a descriptor from HC leaves the registers alone. -/
theorem takeHc_inv {s : State} (h : s.Inv) (rest : List Byte) : ({ s with hc := rest } : State).Inv :=
  inv_of_sameRegisters h (sameData_refl s) rfl rfl rfl rfl rfl

theorem respond_inv {s : State} (h : s.Inv) (st : Status) (c : Cause) (out : List Byte) : (s.respond st c out).Inv :=
  inv_of_sameRegisters h (sameData_refl s) rfl rfl rfl rfl rfl

theorem afterLatched_inv {s : State} (h : s.Inv) : s.afterLatched.Inv := respond_inv h .fatal s.cause []

/-- Fault entry: CAUSE and FAULTED come together, and nothing is said of the data registers while FAULTED. -/
theorem afterFatal_inv {s : State} (h : s.Inv) {c : Cause} (hc : c ≠ .noFault) : (s.afterFatal c).Inv where
  nsize_pos := h.nsize_pos
  ep_idle := h.ep_idle
  canonical := h.canonical
  cause_iff := ⟨fun _ => rfl, fun _ => hc⟩
  idle_zero hp := by rcases hp with hp | hp <;> cases hp
  message hp := by cases hp

/-- INIT_* opens a message that has taken nothing. -/
theorem afterInit_inv {s : State} (h : s.Inv) (hp : s.phase ≠ .faulted) (m : Mode) {n a : List Byte}
    (hn : n.length = s.nsize.toNat) (ha : a.length < 2 ^ 61) : (s.afterInit m n a).Inv where
  nsize_pos := h.nsize_pos
  ep_idle := h.ep_idle
  canonical := canonical_of_empty rfl rfl
  cause_iff := ⟨fun hc => absurd (cause_eq_noFault h hp) hc, fun hf => by cases hf⟩
  idle_zero hi := by rcases hi with hi | hi <;> cases hi
  message _ := ⟨n, a, [], afterInit_inMessage s m n a hn ha⟩

/-- An accepted NEXT extends the message by its fragment. -/
theorem takeFragment_inv {s : State} (h : s.Inv) (hp : s.phase = .active) {d : List Byte}
    (hl : s.ctlen.toNat + d.length ≤ Config.limit) : (takeFragment d s).Inv := by
  obtain ⟨-, -, -, hpb, -, -, -, -, -, hph, hca, hns, -, -, -, hep⟩ := takeFragment_spec s d
  obtain ⟨n, a, x, hm⟩ := h.message hp
  have hact : (takeFragment d s).phase = .active := hph.trans hp
  exact
    { nsize_pos := hns ▸ h.nsize_pos
      ep_idle := hep.trans h.ep_idle
      canonical := by rw [hpb, takeFragment_pending]
      cause_iff := by rw [hca, hph]; exact h.cause_iff
      idle_zero := by simp [hact]
      message := fun _ => ⟨n, a, x ++ d, takeFragment_inMessage d hm (hm.ctlen ▸ hl)⟩ }

/-- A closed message leaves the data registers zero and PHASE FINAL. -/
theorem afterClose_dataZero (s : State) (r : List Byte) (asked : List (Instr × List Byte)) :
    (s.afterClose r asked).DataZero := ⟨rfl, rfl, rfl, rfl, rfl, rfl, rfl, rfl⟩

theorem afterClose_inv {s : State} (h : s.Inv) (hp : s.phase ≠ .faulted) (r : List Byte)
    (asked : List (Instr × List Byte)) : (s.afterClose r asked).Inv where
  nsize_pos := h.nsize_pos
  ep_idle := h.ep_idle
  canonical := canonical_of_empty rfl rfl
  cause_iff := ⟨fun hc => absurd (cause_eq_noFault h hp) hc, fun hf => by cases hf⟩
  idle_zero _ := afterClose_dataZero s r asked
  message ha := by cases ha

/-- Every effect of a well-formed command keeps the invariant. -/
theorem CommandEffect.inv {s t : State} {i : Instr} (h : CommandEffect s i t) (hw : i.wf = true) (hs : s.Inv) :
    t.Inv := by
  cases h with
  | latched => exact afterLatched_inv hs
  | fatal _ hf => exact afterFatal_inv hs (firstFailing_ne_noFault hf)
  | tagsize => exact respond_inv hs _ _ _
  | init hp _ hi hn => exact afterInit_inv hs hp _ hn (hi.ad_length hw)
  | next hp _ _ hl => exact takeFragment_inv hs hp hl
  | close hp => exact afterClose_inv hs (by simp [hp]) _ _

theorem illegalCommand_inv {s t : State} (hs : s.Inv) (h : illegalCommand s = .next t) : t.Inv := by
  rw [illegalCommand_eq] at h
  cases h
  split
  · exact afterLatched_inv hs
  · exact afterFatal_inv hs (by decide)

/-! ### The obligations of 10_state.md -/

/-- Settles O37, by the cases of a step: a reset restores the invariant, waiting keeps the registers, an illegal
descriptor enters the fault, and a command has one of the effects of `CommandEffect`; no request stands on EP. -/
theorem everyStepKeepsTheInvariant : Obligations.EveryStepKeepsTheInvariant := by
  intro s t hs h
  obtain ⟨hn, ⟨b, l, -, rfl⟩ | ⟨-, hcase⟩⟩ := step_cases h
  · exact applyReset_inv hn b l
  rcases hcase with ⟨rfl, -⟩ | ⟨why, rest, -, -, hi⟩ | ⟨i, rest, -, hd, he⟩ | ⟨i, rest, hep, -, -⟩
  · exact tick_inv hs
  · exact illegalCommand_inv (takeHc_inv (tick_inv hs) rest) hi
  · obtain ⟨hw, hc⟩ := wf_of_decode hd
    exact (effect_of_exec hc he).inv hw (takeHc_inv (tick_inv hs) rest)
  · exact absurd hs.ep_idle hep

/-- Settles O8, by the value of each byte and the two round trips. -/
theorem registerBytesAreBigEndian : Obligations.RegisterBytesAreBigEndian := by
  refine ⟨fun b i hi => ?_, fun b => ⟨blockBytes_length b, bytesBlock_blockBytes b⟩, blockBytes_bytesBlock⟩
  have hlen : i < (blockBytes b).length := by rwa [blockBytes_length]
  rw [List.getElem?_eq_getElem hlen, blockBytes_getElem]

/-- Settles O14: one way by the cases of a step, the other by the step of each thing it can find. -/
theorem stepAnswersButForTheTwoStops : Obligations.StepAnswersButForTheTwoStops := by
  intro s
  constructor
  · rintro ⟨t, h⟩
    obtain ⟨hn, ⟨b, l, e, -⟩ | ⟨-, hcase⟩⟩ := step_cases h
    · exact ⟨hn, .inl ((resetDue_iff s).2 ⟨b, l, e⟩)⟩
    refine ⟨hn, .inr ?_⟩
    rcases hcase with ⟨-, ⟨he, -⟩ | ⟨-, hd⟩⟩ | ⟨_, _, he, -⟩ | ⟨_, _, he, -⟩ | ⟨i, rest, -, hd, -⟩
    · exact .inl he
    · exact .inr (by simp [hd])
    · exact .inl he
    · exact .inl he
    · exact .inr (by simp [hd])
  · rintro ⟨hn, hw⟩
    by_cases hr : s.resetDue = true
    · obtain ⟨b, l, e⟩ := (resetDue_iff s).1 hr
      exact ⟨_, step_reset hn e⟩
    have hr' : s.resetDue = false := by simpa using hr
    by_cases he : s.epPending = []
    · cases hd : decode .hc s.hc with
      | incomplete => exact ⟨_, step_wait_hc hn hr' he hd⟩
      | illegal why rest => exact ⟨_, (step_illegal hn hr' he hd).trans (illegalCommand_eq _)⟩
      | instr i rest => exact step_command hn hr' he hd ▸ exec_answers_next i _
    · cases hd : decode .ep s.epPending with
      | incomplete => exact ⟨_, step_wait_ep hn hr' he hd⟩
      | illegal why rest =>
        rcases hw with h | h | h
        · exact absurd h hr
        · exact absurd h he
        · exact absurd hd (h why rest)
      | instr i rest => exact step_request hn hr' he hd ▸ exec_answers_next i _

/-- Settles O30: both verdicts close the message. -/
theorem finaliseZeroises : Obligations.FinaliseZeroises := by
  intro s tag hp
  constructor
  · intro hm
    obtain ⟨r, asked, hr⟩ := closeSeal_eq_afterClose s
    exact ⟨_, (execFinEnc_accepted hp hm).trans (congrArg _ hr), afterClose_dataZero s r asked, rfl, rfl⟩
  · intro hm ht
    exact ⟨_, (execFinDec_accepted hp hm ht).trans (congrArg _ (closeOpen_eq tag s ht)),
      afterClose_dataZero s _ _, rfl, rfl⟩

/-- Settles O35, by the effect of a command and the step of an illegal descriptor. -/
theorem phaseTransitionTable : Obligations.PhaseTransitionTable := by
  refine ⟨fun s i hc => ?_, fun s why rest hn hr he hd => ?_⟩
  · obtain ⟨t, h, heff⟩ := exec_effect s hc
    exact ⟨t, h, heff.phase_cause⟩
  · refine ⟨_, (step_illegal hn hr he hd).trans (illegalCommand_eq _), ?_⟩
    by_cases hp : s.phase = .faulted
    · rw [if_pos (by exact hp), if_pos hp, ← hp]; rfl
    · rw [if_neg (by exact hp), if_neg hp]; rfl

/-- Settles O38, by the cases of a step. -/
theorem noStepChangesNsizeOrEngine : Obligations.NoStepChangesNsizeOrEngine := by
  intro s t h
  obtain ⟨-, ⟨b, l, -, rfl⟩ | ⟨-, hcase⟩⟩ := step_cases h
  · exact ⟨rfl, rfl⟩
  rcases hcase with ⟨rfl, -⟩ | ⟨why, rest, -, -, hi⟩ | ⟨i, rest, -, -, he⟩ | ⟨i, rest, -, -, he⟩
  · exact ⟨rfl, rfl⟩
  · rw [illegalCommand_eq] at hi
    cases hi
    split <;> exact ⟨rfl, rfl⟩
  · obtain ⟨hn, hen, -⟩ := exec_sameSurroundings he
    exact ⟨hn, hen⟩
  · obtain ⟨hn, hen, -⟩ := exec_sameSurroundings he
    exact ⟨hn, hen⟩

/-- Settles O40: of the effects on an ACTIVE state, those that open no message and stay ACTIVE are TAGSIZE and NEXT. -/
theorem messageConstantsAreFixed : Obligations.MessageConstantsAreFixed := by
  intro s t i hc hinit hs ht h
  cases effect_of_exec hc h with
  | latched hp => rw [hs] at hp; cases hp
  | fatal => cases ht
  | tagsize => exact ⟨rfl, rfl, rfl⟩
  | init _ _ hi _ => rw [hi.isInit] at hinit; cases hinit
  | @next d =>
    obtain ⟨-, -, -, -, -, -, had, htm, hm, -⟩ := takeFragment_spec s d
    exact ⟨htm, had, hm⟩
  | close => cases ht

/-- Settles O13, each value as `State.reset` writes it. -/
theorem resetValuesAreZero : Obligations.ResetValuesAreZero :=
  ⟨rfl, rfl, rfl, rfl, rfl, rfl, rfl, rfl, rfl, rfl, rfl, rfl, rfl⟩

/-- Settles O36: the state after reset is what a reset makes of itself. -/
theorem invariantHoldsAtReset : Obligations.InvariantHoldsAtReset := by
  have h : State.reset.nsize ≠ 0 := by decide
  show (State.reset.applyReset [] []).Inv
  exact applyReset_inv h [] []

end Sys2Proof.Proofs
end

section
/-! PROOFS. The family 20_memory.md. First the closing commands with what they send and ask, then the one response of a
command, then its requests on EP, then two fragmentations of one message. -/

namespace Sys2Proof.Proofs

open Sys2Proof.Machine Sys2Proof.Laws

/-! ### The step -/

/-- Settles O9: the descriptor at the head of HC, or the request standing on EP, is what the step runs. -/
theorem stepRunsTheDecodedInstruction : Obligations.StepRunsTheDecodedInstruction :=
  ⟨fun _ _ _ hn hd he h => step_command hn hd he h, fun _ _ _ hn hd he h => step_request hn hd he h⟩

/-! ### The commands that close a message -/

/-- An accepted FIN_ENC or FIN_DEC has the effect of its own rule (43_finalize.md R152, R153), which `CommandEffect`
leaves open. -/
theorem exec_close {s t : State} {i : Instr} (hp : s.phase = .active) (hf : firstFailing i s = none)
    (hi : i = .finEnc ∨ ∃ tag, i = .finDec tag) (h : exec i s = .next t) :
    (i = .finEnc ∧ t = closeSeal s) ∨ ∃ tag, i = .finDec tag ∧ tag.length = 16 ∧ t = closeOpen tag s := by
  have hc : i.channel = .hc := by rcases hi with rfl | ⟨tag, rfl⟩ <;> rfl
  rcases exec_accepted s i hc (by simp [hp]) hf with ⟨rfl, -⟩ | ⟨m, n, a, hopen, -⟩ | ⟨d, rfl, -⟩ |
    ⟨rfl, -, -, e⟩ | ⟨tag, rfl, -, -, ht, e⟩
  · simp at hi
  · rcases hopen with ⟨rfl, -⟩ | ⟨rfl, -⟩ | ⟨rfl, -⟩ <;> simp at hi
  · simp at hi
  · injection h.symm.trans e with ht
    exact .inl ⟨rfl, ht⟩
  · injection h.symm.trans e with hst
    exact .inr ⟨tag, rfl, ht, hst⟩

/-! ### One response for each command (R60, 30_encoding.md R88, R89) -/

/-- The command `i`, taking `s` to `t`, has sent one response: the CAUSE register after it, a payload only on OK,
FATAL exactly where CAUSE is set, AUTH_FAIL only on FIN_DEC. -/
def SentOneResponse (s t : State) (i : Instr) : Prop :=
  ∃ st out, t.hr = s.hr ++ responseBytes st t.cause out ∧ (st ≠ .ok → out = []) ∧
    (st = .fatal ↔ t.cause ≠ .noFault) ∧ (st = .authFail → ∃ tag, i = .finDec tag)

theorem sentOneResponse_fatal {s t : State} (i : Instr) (hc : t.cause ≠ .noFault)
    (hr : t.hr = s.hr ++ responseBytes .fatal t.cause []) : SentOneResponse s t i :=
  ⟨.fatal, [], hr, fun _ => rfl, by simp [hc], by simp⟩

theorem sentOneResponse_ok {s t : State} {out : List Byte} (i : Instr) (hc : t.cause = .noFault)
    (hr : t.hr = s.hr ++ responseBytes .ok .noFault out) : SentOneResponse s t i :=
  ⟨.ok, out, by rw [hr, hc], by simp, by simp [hc], by simp⟩

theorem sentOneResponse_authFail {s t : State} (tag : List Byte) (hc : t.cause = .noFault)
    (hr : t.hr = s.hr ++ responseBytes .authFail .noFault []) : SentOneResponse s t (.finDec tag) :=
  ⟨.authFail, [], by rw [hr, hc], fun _ => rfl, by simp [hc], fun _ => ⟨tag, rfl⟩⟩

/-- FIN_ENC answers OK, with or without a tail before the tag. -/
theorem closeSeal_response {s : State} (hc : s.cause = .noFault) : SentOneResponse s (closeSeal s) .finEnc := by
  by_cases hz : s.pblen = 0
  · rw [closeSeal_noTail hz]; exact sentOneResponse_ok _ hc rfl
  · rw [closeSeal_tail hz]; exact sentOneResponse_ok _ hc rfl

/-- FIN_DEC answers OK or AUTH_FAIL, by its verdict. -/
theorem closeOpen_response {s : State} {tag : List Byte} (hc : s.cause = .noFault) (ht : tag.length = 16) :
    SentOneResponse s (closeOpen tag s) (.finDec tag) := by
  rw [closeOpen_eq tag s ht]
  by_cases hv : tag = blockBytes (expectedTag s)
  · rw [if_pos hv]; exact sentOneResponse_ok _ hc rfl
  · rw [if_neg hv]; exact sentOneResponse_authFail tag hc rfl

/-- Settles O39, by the effect of a command: outside FAULTED no cause is latched, so that FATAL is the answer of exactly
the effects that raise a cause or repeat the latched one. -/
theorem oneResponsePerCommand : Obligations.OneResponsePerCommand := by
  intro s t i hcause hch h
  have quiet : s.phase ≠ .faulted → s.cause = .noFault := fun hp => not_not.1 fun hc => hp (hcause.1 hc)
  show SentOneResponse s t i
  cases effect_of_exec hch h with
  | latched hp => exact sentOneResponse_fatal i (hcause.2 hp) rfl
  | fatal _ hf => exact sentOneResponse_fatal i (firstFailing_ne_noFault hf) rfl
  | tagsize hp => exact sentOneResponse_ok i (quiet hp) rfl
  | init hp => exact sentOneResponse_ok i (quiet hp) rfl
  | @next d hp =>
    obtain ⟨-, -, -, -, -, hr, -, -, -, -, hca, -⟩ := takeFragment_spec s d
    exact sentOneResponse_ok i (hca.trans (quiet (by simp [hp]))) hr
  | close hp hf hi =>
    have hc := quiet (by simp [hp])
    rcases exec_close hp hf hi h with ⟨rfl, e⟩ | ⟨tag, rfl, ht, e⟩
    · rw [e]; exact closeSeal_response hc
    · rw [e]; exact closeOpen_response hc ht

/-! ### The requests of a command (R56, 30_encoding.md R91) -/

/-- A positive number of whole blocks that fits a request of `Eng.ctr` or `Eng.ghash`. -/
def WholeBlocks (d : List Byte) : Prop := 16 ≤ d.length ∧ d.length % 16 = 0 ∧ 16 + d.length < 2 ^ 64

/-- The length R91 gives the answer to a request. -/
def answerLength : Instr → Nat
  | .engCtr _ d => d.length + 16
  | _ => 16

/-- A well-formed request with an answer of its length, where nonces have `k` bytes. -/
structure SoundExchange (k : Nat) (r : Instr × List Byte) : Prop where
  channel : r.1.channel = .ep
  wf : r.1.wf = true
  nonce : ∀ n, r.1 = .engDerive n → n.length = k
  answer : r.2.length = answerLength r.1

/-- What a command has asked between `s` and `t` are sound exchanges. -/
def AskedSoundly (s t : State) : Prop :=
  ∃ asked, t.epLog = s.epLog ++ exchanges asked ∧ ∀ r ∈ asked, SoundExchange s.nsize.toNat r

/-- Padding is what makes whole blocks of data of any length (40_engine_primitives.md R118). -/
theorem wholeBlocks_pad16 {d : List Byte} (h : d ≠ []) (hl : d.length < 2 ^ 63) : WholeBlocks (pad16 d) :=
  pad16_bounds h hl

theorem wholeBlocks_lengthBlock (a c : Word64) : WholeBlocks (lengthBlock a c) := by
  simp [WholeBlocks, lengthBlock]

theorem soundExchange_derive {n : List Byte} {k : Nat} (hn : n.length = k) (h0 : k ≠ 0) (hk : k < 2 ^ 16) (b : Block) :
    SoundExchange k (.engDerive n, blockBytes b) where
  channel := rfl
  wf := by simp only [Instr.wf, Bool.and_eq_true, decide_eq_true_eq]; omega
  nonce m hm := by cases hm; exact hn
  answer := blockBytes_length b

theorem soundExchange_inc (k : Nat) (c b : Block) : SoundExchange k (.engInc c, blockBytes b) :=
  ⟨rfl, rfl, by simp, blockBytes_length b⟩

theorem soundExchange_enc (k : Nat) (c b : Block) : SoundExchange k (.engEnc c, blockBytes b) :=
  ⟨rfl, rfl, by simp, blockBytes_length b⟩

theorem soundExchange_ghash {d : List Byte} (h : WholeBlocks d) (k : Nat) (y b : Block) :
    SoundExchange k (.engGhash y d, blockBytes b) where
  channel := rfl
  wf := by simpa [Instr.wf, WholeBlocks, and_assoc] using h
  nonce := by simp
  answer := blockBytes_length b

theorem soundExchange_ctr {d : List Byte} (h : WholeBlocks d) (k : Nat) (e : Engine) (c : Block) :
    SoundExchange k (.engCtr c d, (engCtr e c d).1 ++ blockBytes (engCtr e c d).2) where
  channel := rfl
  wf := by simpa [Instr.wf, WholeBlocks, and_assoc] using h
  nonce := by simp
  answer := by
    obtain ⟨-, hmod, -⟩ := h
    rw [List.length_append, engCtr_length _ _ _ hmod, blockBytes_length]; rfl

/-- A command that leaves the record of EP alone has asked nothing. -/
theorem askedSoundly_of_epLog_eq {s t : State} (h : t.epLog = s.epLog) : AskedSoundly s t :=
  ⟨[], by rw [h]; exact (List.append_nil _).symm, by simp⟩

/-- INIT_*: derive, encrypt, increment, and one fold where there is associated data (41_initialize.md R130). -/
theorem afterInit_askedSoundly {s : State} {n a : List Byte} (m : Mode) (h0 : s.nsize ≠ 0)
    (hn : n.length = s.nsize.toNat) (ha : a.length < 2 ^ 61) : AskedSoundly s (s.afterInit m n a) := by
  have hk : s.nsize.toNat ≠ 0 := fun h => h0 (BitVec.eq_of_toNat_eq h)
  refine ⟨_, rfl, ?_⟩
  simp only [List.forall_mem_append, List.forall_mem_cons]
  refine ⟨⟨soundExchange_derive hn hk s.nsize.isLt _, soundExchange_enc _ _ _, soundExchange_inc _ _ _, by simp⟩, ?_⟩
  by_cases hz : a.length = 0
  · simp [hz]
  · have hb : WholeBlocks (pad16 a) := wholeBlocks_pad16 (by simpa using hz) (by omega)
    simpa [hz] using soundExchange_ghash hb _ _ _

/-- NEXT: what stands in whole blocks is folded and, but in VFY, encrypted; nothing where no block is complete
(42_next.md R143 to R146). -/
theorem takeFragment_askedSoundly {s : State} {d : List Byte} (hl : d.length ≤ Config.limit) :
    AskedSoundly s (takeFragment d s) := by
  by_cases h : 16 ≤ (s.pending ++ d).length
  · have hb : WholeBlocks (wholePart (s.pending ++ d)) := by
      have hp := pending_length_le s
      have hlim : Config.limit = 68719476704 := rfl
      rw [List.length_append] at h
      simp only [WholeBlocks, wholePart_length, List.length_append]
      omega
    have hc : WholeBlocks (engCtr s.engine s.ctr (wholePart (s.pending ++ d))).1 := by
      rw [WholeBlocks, engCtr_length _ _ _ (by rw [wholePart_length]; omega)]; exact hb
    cases hm : s.mode with
    | enc =>
      rw [takeFragment_enc hm h]
      exact ⟨_, rfl, by simpa using ⟨soundExchange_ctr hb _ _ _, soundExchange_ghash hc _ _ _⟩⟩
    | dec =>
      rw [takeFragment_dec hm h]
      exact ⟨_, rfl, by simpa using ⟨soundExchange_ghash hb _ _ _, soundExchange_ctr hb _ _ _⟩⟩
    | vfy =>
      rw [takeFragment_vfy hm h]
      exact ⟨_, rfl, by simpa using soundExchange_ghash hb _ _ _⟩
  · rw [takeFragment_absorb (by omega)]
    exact askedSoundly_of_epLog_eq rfl

/-- FIN_ENC: the fold of the lengths, after the tail's keystream and fold where bytes are pending (R152). -/
theorem closeSeal_askedSoundly (s : State) : AskedSoundly s (closeSeal s) := by
  have hl := wholeBlocks_lengthBlock s.adbits s.ctlen
  by_cases hz : s.pblen = 0
  · rw [closeSeal_noTail hz]
    exact ⟨_, rfl, by simpa using soundExchange_ghash hl _ _ _⟩
  · have hp : 0 < s.pending.length := List.length_pos_iff.2 fun e => hz ((pblen_eq_zero_iff s).2 e)
    have hle := pending_length_le s
    have ht : (xorBytes s.pending (blockBytes (engEnc s.engine s.ctr))).length = s.pending.length := by
      rw [xorBytes_length, blockBytes_length]; omega
    have hb := wholeBlocks_pad16 (List.length_pos_iff.1 (ht ▸ hp)) (by omega)
    rw [closeSeal_tail hz]
    exact ⟨_, rfl, by
      simpa using ⟨soundExchange_enc _ _ _, soundExchange_ghash hb _ _ _, soundExchange_ghash hl _ _ _⟩⟩

/-- FIN_DEC: the fold of the lengths, after the tail's fold and, in DEC, its keystream where bytes are pending (R153). -/
theorem closeOpen_askedSoundly (s : State) {tag : List Byte} (ht : tag.length = 16) :
    AskedSoundly s (closeOpen tag s) := by
  rw [closeOpen_eq tag s ht]
  refine ⟨openAsked s, rfl, ?_⟩
  simp only [openAsked, List.forall_mem_append]
  refine ⟨⟨?_, ?_⟩, by simpa using soundExchange_ghash (wholeBlocks_lengthBlock s.adbits s.ctlen) _ _ _⟩
  · by_cases hz : s.pblen = 0
    · rw [if_pos hz]; simp
    · have hp := pending_length_le s
      have hb := wholeBlocks_pad16 (fun e => hz ((pblen_eq_zero_iff s).2 e)) (by omega)
      rw [if_neg hz]; simpa using soundExchange_ghash hb _ _ _
  · by_cases hd : s.pblen ≠ 0 ∧ s.mode = .dec
    · rw [if_pos hd]; simpa using soundExchange_enc _ _ _
    · rw [if_neg hd]; simp

/-- Every effect of a well-formed command asks only sound exchanges. -/
theorem exec_askedSoundly {s t : State} {i : Instr} (h0 : s.nsize ≠ 0) (hch : i.channel = .hc) (hw : i.wf = true)
    (h : exec i s = .next t) : AskedSoundly s t := by
  cases effect_of_exec hch h with
  | latched => exact askedSoundly_of_epLog_eq rfl
  | fatal => exact askedSoundly_of_epLog_eq rfl
  | tagsize => exact askedSoundly_of_epLog_eq rfl
  | init _ _ hi hn => exact afterInit_askedSoundly _ h0 hn (hi.ad_length hw)
  | next _ _ _ hl => exact takeFragment_askedSoundly (le_trans (Nat.le_add_left _ _) hl)
  | close hp hf hi =>
    rcases exec_close hp hf hi h with ⟨rfl, e⟩ | ⟨tag, rfl, ht, e⟩
    · rw [e]; exact closeSeal_askedSoundly s
    · rw [e]; exact closeOpen_askedSoundly s ht

/-- Settles O41, by the requests of each effect of a command. -/
theorem engineSeesWholeBlocksOnly : Obligations.EngineSeesWholeBlocksOnly := by
  intro s t i h0 hch hw h
  obtain ⟨asked, hlog, hs⟩ := exec_askedSoundly h0 hch hw h
  refine ⟨asked, hlog, fun r hr => ?_⟩
  obtain ⟨hc, hwf, hn, ha⟩ := hs r hr
  exact ⟨hc, hwf, hn, ha⟩

/-! ### Two fragmentations of the same bytes (R55) -/

theorem sameSurroundings_symm {s t : State} (h : SameSurroundings s t) : SameSurroundings t s := by
  obtain ⟨hn, he, hhc, hr, hep⟩ := h
  exact ⟨hn.symm, he.symm, hhc.symm, hr.symm, hep.symm⟩

/-- Settles O44: each run leaves the message that has taken all the bytes, and both outputs continue those sent before
to the same whole blocks; in VFY nothing is sent. -/
theorem fragmentationDoesNotMatter : Obligations.FragmentationDoesNotMatter := by
  intro s fs gs hs hp hfg hl
  obtain ⟨n, a, x, hm⟩ := hs.message hp
  rw [hm.ctlen] at hl
  obtain ⟨t, outs, ft, mt, pt, mdt, ct, st, ht, lt, cant, et, vt⟩ := execAll_next fs hp hm hl
  obtain ⟨u, outs', fu, mu, pu, mdu, cu, su, hu, lu, canu, eu, vu⟩ := execAll_next gs hp hm (hfg ▸ hl)
  have htu : SameSurroundings t u := SameSurroundings_trans (sameSurroundings_symm st) su
  have hen : u.engine = t.engine := htu.2.1
  have hdata : SameData t u :=
    inMessage_sameData mt (hfg ▸ mu) hen (mdu.trans mdt.symm) (cant hs.canonical) (canu hs.canonical)
  have hout : outs.flatten = outs'.flatten := by
    by_cases hv : s.mode = .vfy
    · rw [vt hv, vu hv]; simp
    · exact List.append_cancel_left ((et hv).trans (hfg ▸ (eu hv).symm))
  exact ⟨t, u, outs, outs', ft, fu, hdata, htu, pu.trans pt.symm, cu.trans ct.symm, ht, hu, lt, lu, hout⟩

end Sys2Proof.Proofs
end

section
/-! PROOFS. The family 30_encoding.md. First the decoder on a stream, by its header and what follows it; then the rows
of the opcode map and the headers that are no command; then the bytes of a response; then the placed table word. -/

namespace Sys2Proof.Proofs

open Sys2Proof.Machine Sys2Proof.Laws

/-! ### Decoding an encoded instruction -/

/-- The header of a well-formed instruction announces its payload, and the two decode to the instruction. -/
theorem decodeFramed_headerOf (i : Instr) : Encoding.Statement i := by
  cases i with
  | tagsize => exact Encoding.tagsize
  | initEnc n a => exact Encoding.initEnc n a
  | initDec n a => exact Encoding.initDec n a
  | initVfy n a => exact Encoding.initVfy n a
  | next d => exact Encoding.next d
  | finEnc => exact Encoding.finEnc
  | finDec tag => exact Encoding.finDec tag
  | engDerive n => exact Encoding.engDerive n
  | engInc c => exact Encoding.engInc c
  | engCtr c d => exact Encoding.engCtr c d
  | engGhash y d => exact Encoding.engGhash y d
  | engEnc b => exact Encoding.engEnc b

/-- Settles O2: an encoding is a header with the payload it announces, and the two decode to the instruction. -/
theorem decodeOfEncodeIsTheInstruction : Obligations.DecodeOfEncodeIsTheInstruction := by
  intro i rest hw
  obtain ⟨hlen, hdec⟩ := decodeFramed_headerOf i hw
  rw [encode, decode_framed _ _ _ _ hlen, hdec]

/-! ### The decoder on any stream (R82) -/

/-- A stream of 16 bytes or more starts with a header. -/
theorem exists_header {bs : List Byte} (h : 16 ≤ bs.length) : ∃ k q, bs = blockBytes k ++ q :=
  ⟨bytesBlock (bs.take 16), bs.drop 16, by
    rw [blockBytes_bytesBlock _ (by rw [List.length_take]; omega), List.take_append_drop]⟩

/-- Bytes that reach the announced length are a payload of that length and the rest. -/
theorem exists_payload {n : Nat} {q : List Byte} (h : n ≤ q.length) : ∃ p rest, p.length = n ∧ q = p ++ rest :=
  ⟨q.take n, q.drop n, List.length_take_of_le h, (List.take_append_drop n q).symm⟩

/-- A header with fewer bytes after it than it announces is incomplete. -/
theorem decode_partial {ch : Channel} {h : Block} {q : List Byte} (hq : q.length < payloadLength ch h) :
    decode ch (blockBytes h ++ q) = .incomplete := by
  have h16 : (blockBytes h).length = 16 := blockBytes_length h
  rw [decode, if_neg (by rw [List.length_append, h16]; omega), List.take_left' h16, List.drop_left' h16,
    bytesBlock_blockBytes]
  exact if_pos hq

/-- A header followed by all it announces is never incomplete. -/
theorem decode_framed_ne_incomplete {ch : Channel} {h : Block} {p : List Byte} (rest : List Byte)
    (hp : p.length = payloadLength ch h) : decode ch (blockBytes h ++ p ++ rest) ≠ .incomplete := by
  rw [decode_framed ch h p rest hp]
  cases decodeFramed ch h p <;> simp

/-- Which streams that start with a header are incomplete: those with fewer bytes after it than it announces. -/
theorem decode_header_incomplete_iff (ch : Channel) (h : Block) (q : List Byte) :
    decode ch (blockBytes h ++ q) = .incomplete ↔ q.length < payloadLength ch h := by
  refine ⟨fun hd => ?_, decode_partial⟩
  by_contra hq
  obtain ⟨p, rest, hp, rfl⟩ := exists_payload (Nat.le_of_not_lt hq)
  rw [← List.append_assoc] at hd
  exact decode_framed_ne_incomplete rest hp hd

/-- The inversion of the decoder: a stream it reads whole starts with a header and the payload it announces. -/
theorem exists_frame {ch : Channel} {bs : List Byte} (hd : decode ch bs ≠ .incomplete) :
    ∃ h p rest, p.length = payloadLength ch h ∧ bs = blockBytes h ++ p ++ rest := by
  have h16 : 16 ≤ bs.length := Nat.le_of_not_lt fun hs => hd (decode_short ch bs hs)
  obtain ⟨h, q, rfl⟩ := exists_header h16
  rw [ne_eq, decode_header_incomplete_iff, not_lt] at hd
  obtain ⟨p, rest, hp, rfl⟩ := exists_payload hd
  exact ⟨h, p, rest, hp, (List.append_assoc ..).symm⟩

/-- The instruction read from a header and the payload it announces encodes to them. -/
theorem encode_of_decodeFramed {ch : Channel} {h : Block} {p : List Byte} {i : Instr}
    (hp : p.length = payloadLength ch h) (hd : decodeFramed ch h p = .ok i) :
    i.wf = true ∧ i.channel = ch ∧ encode i = blockBytes h ++ p := by
  obtain ⟨op, hrow, rfl⟩ := decodeFramed_eq_ok hd
  cases ch with
  | hc =>
    obtain ⟨hw, hch, hh, hpay⟩ := decoded_command hrow hp
    exact ⟨hw, hch, by rw [encode, hh, hpay]⟩
  | ep =>
    obtain ⟨hw, hch, hh, hpay⟩ := decoded_request hrow hp
    exact ⟨hw, hch, by rw [encode, hh, hpay]⟩

/-- Settles O3: what is read is a frame, and the instruction of a frame encodes to it. -/
theorem decodedBytesAreTheEncoding : Obligations.DecodedBytesAreTheEncoding := by
  intro ch bs i rest hd
  obtain ⟨h, p, r, hp, rfl⟩ := exists_frame (by rw [hd]; simp)
  rw [decode_framed ch h p r hp] at hd
  cases hf : decodeFramed ch h p with
  | error why => rw [hf] at hd; cases hd
  | ok j =>
    rw [hf] at hd
    cases hd
    obtain ⟨hw, hch, he⟩ := encode_of_decodeFramed hp hf
    exact ⟨hw, hch, by rw [he]⟩

/-- Settles O6, by the step that waits and by which streams are incomplete. -/
theorem incompleteDescriptorWaits : Obligations.IncompleteDescriptorWaits := by
  refine ⟨fun s hn hdue hep hd => ?_, decode_short .hc, decode_header_incomplete_iff .hc⟩
  have hstep : step s = .next s.tick := step_wait_hc hn hdue hep hd
  exact ⟨hstep, fun hr => by rw [hstep, tick_of_resets_nil hr]⟩

/-! ### The rows of the opcode map (R83) -/

/-- What a mask of the map has in the field NLEN: nothing where the row has a nonce operand (R84). -/
def nlenMask (op : Opcode) : BitVec 16 := if op.isInit then 0 else BitVec.allOnes 16

/-- What a mask of the map has in the field DLEN: all of it where the row has no data operand, the top three bits where
the row bounds it below 2^61, else nothing (R84). -/
def dlenMask (op : Opcode) : Word64 :=
  if op.noData then BitVec.allOnes 64 else if op.isInit then 0xE000000000000000 else 0

/-- The masks R83 prints, field by field. -/
theorem mask_fields : ∀ r ∈ commandMap,
    hdrOp r.mask = BitVec.allOnes 8 ∧ hdrRsv1 r.mask = BitVec.allOnes 8 ∧ hdrNlen r.mask = nlenMask r.opcode ∧
      hdrRsv2 r.mask = BitVec.allOnes 32 ∧ hdrDlen r.mask = dlenMask r.opcode := by
  decide

/-- The match of a row is its OP byte in a header of zeros. -/
theorem matchBits_eq : ∀ r ∈ commandMap, r.matchBits = cmdHeader r.opcode.code 0 0 := by decide

theorem commandOfOp_code : ∀ r ∈ commandMap, commandOfOp r.opcode.code = some r.opcode := by decide

theorem commandOfOp_eq_row_iff {r : MapRow} (hr : r ∈ commandMap) (b : Byte) :
    commandOfOp b = some r.opcode ↔ b = r.opcode.code :=
  ⟨fun h => (commandOfOp_eq_some h).1, fun h => h ▸ commandOfOp_code r hr⟩

/-- The rows of the map are the seven commands. -/
theorem exists_row {b : Byte} {op : Opcode} (h : commandOfOp b = some op) : ∃ r ∈ commandMap, r.opcode = op := by
  obtain ⟨-, hop⟩ := commandOfOp_eq_some h
  rcases hop with rfl | rfl | rfl | rfl | rfl | rfl | rfl <;> decide

theorem and_nlenMask_iff (op : Opcode) (x : BitVec 16) :
    x &&& nlenMask op = 0 ↔ (op.isInit = false → x = 0) := by
  unfold nlenMask
  cases op.isInit
  · rw [if_neg (by simp), BitVec.and_allOnes]; simp
  · rw [if_pos rfl]; simp

/-- No row is both without data and one of INIT_*, so that the two conditions on DLEN do not meet. -/
theorem and_dlenMask_iff (op : Opcode) (x : Word64) :
    x &&& dlenMask op = 0 ↔ (op.noData = true → x = 0) ∧ (op.isInit = true → x.toNat < 2 ^ 61) := by
  unfold dlenMask
  cases hn : op.noData
  · rw [if_neg (by simp)]
    cases op.isInit
    · rw [if_neg (by simp)]; simp
    · rw [if_pos rfl, and_top_three]; simp
  · have hi : op.isInit = false := by cases op <;> simp_all [Opcode.noData, Opcode.isInit]
    rw [if_pos rfl, BitVec.and_allOnes]; simp [hi]

/-- A row's mask and match are the conditions of R83 to R86 on the fields of a header. -/
theorem row_selects_iff {r : MapRow} (hr : r ∈ commandMap) (h : Block) :
    h &&& r.mask = r.matchBits ↔ commandOf h = .ok r.opcode := by
  obtain ⟨hop, hrsv1, hnlen, hrsv2, hdlen⟩ := mask_fields r hr
  rw [and_eq_fields, commandOf_eq_ok, commandOfOp_eq_row_iff hr, matchBits_eq r hr, hop, hrsv1, hnlen, hrsv2, hdlen]
  simp only [hdrOp_cmdHeader, hdrRsv1_cmdHeader, hdrNlen_cmdHeader, hdrRsv2_cmdHeader, hdrDlen_cmdHeader,
    BitVec.and_allOnes, and_nlenMask_iff, and_dlenMask_iff, and_left_comm]

/-- A row is determined by its command. -/
theorem row_ext : ∀ r₁ ∈ commandMap, ∀ r₂ ∈ commandMap, r₁.opcode = r₂.opcode → r₁ = r₂ := by decide

/-- Settles O4, since each row selects exactly the headers of its command. -/
theorem headersSelectRowsByMaskAndMatch : Obligations.HeadersSelectRowsByMaskAndMatch := by
  refine ⟨fun h op => ⟨fun hc => ?_, ?_⟩, fun h r₁ r₂ m₁ m₂ h₁ h₂ => ?_, by decide⟩
  · obtain ⟨hop, -⟩ := commandOf_eq_ok.1 hc
    obtain ⟨r, hr, rfl⟩ := exists_row hop
    exact ⟨r, hr, rfl, (row_selects_iff hr h).2 hc⟩
  · rintro ⟨r, hr, rfl, hsel⟩
    exact (row_selects_iff hr h).1 hsel
  · rw [row_selects_iff m₁] at h₁
    rw [row_selects_iff m₂, h₁] at h₂
    injection h₂ with hop
    exact row_ext r₁ m₁ r₂ m₂ hop

/-! ### The headers that are no command (R86) -/

theorem commandOfOp_eq_none_iff (b : Byte) :
    commandOfOp b = none ↔ b ∉ ([0x01, 0x10, 0x11, 0x12, 0x20, 0x30, 0x31] : List Byte) := by
  simp [commandOfOp, ite_eq_iff]

/-- The OP bytes of INIT_*, and of the commands without data. -/
theorem code_mem_iff {b : Byte} {op : Opcode} (h : commandOfOp b = some op) :
    (b ∈ ([0x10, 0x11, 0x12] : List Byte) ↔ op.isInit = true) ∧
      (b ∈ ([0x30, 0x01] : List Byte) ↔ op.noData = true) := by
  obtain ⟨rfl, hop⟩ := commandOfOp_eq_some h
  rcases hop with rfl | rfl | rfl | rfl | rfl | rfl | rfl <;> decide

/-- A header is illegal when it stands for no command. -/
theorem exists_illegal_iff (h : Block) : (∃ why, commandOf h = .error why) ↔ ¬ ∃ op, commandOf h = .ok op := by
  cases commandOf h <;> simp

/-- The illegal headers of R86: `commandOf_eq_ok` denied, for a reserved OP and for each command. -/
theorem illegal_header_iff (h : Block) : (∃ why, commandOf h = .error why) ↔
    hdrOp h ∉ ([0x01, 0x10, 0x11, 0x12, 0x20, 0x30, 0x31] : List Byte) ∨ hdrRsv1 h ≠ 0 ∨ hdrRsv2 h ≠ 0 ∨
      (hdrNlen h ≠ 0 ∧ hdrOp h ∉ ([0x10, 0x11, 0x12] : List Byte)) ∨
      (hdrDlen h ≠ 0 ∧ hdrOp h ∈ ([0x30, 0x01] : List Byte)) ∨
      (2 ^ 61 ≤ (hdrDlen h).toNat ∧ hdrOp h ∈ ([0x10, 0x11, 0x12] : List Byte)) := by
  rw [exists_illegal_iff, ← commandOfOp_eq_none_iff]
  simp only [commandOf_eq_ok]
  cases hop : commandOfOp (hdrOp h) with
  | none => simp
  | some op =>
    obtain ⟨hinit, hdata⟩ := code_mem_iff hop
    rw [hinit, hdata]
    simp only [Option.some.injEq, exists_eq_left', reduceCtorEq, false_or]
    grind

/-- A whole illegal descriptor is read as such, with its payload (R82, R86). -/
theorem decode_illegal {h : Block} {why : Illegal} {p : List Byte} (rest : List Byte)
    (hw : commandOf h = .error why) (hp : p.length = (hdrNlen h).toNat + (hdrDlen h).toNat) :
    decode .hc (blockBytes h ++ p ++ rest) = .illegal why rest := by
  have hf : decodeFramed .hc h p = .error why := by simp only [decodeFramed, selectRow, hw]
  rw [decode_framed .hc h p rest hp, hf]

/-- Settles O5, by the illegal headers and by the step that reads one of them. -/
theorem illegalDescriptorsRaiseCauseFive : Obligations.IllegalDescriptorsRaiseCauseFive := by
  refine ⟨illegal_header_iff, fun s h p rest hn hdue hep ⟨why, hw⟩ hp hhc => ?_⟩
  have hstep : step s = illegalCommand { s.tick with hc := rest } :=
    step_illegal hn hdue hep (hhc ▸ decode_illegal rest hw hp)
  rw [hstep, illegalCommand_eq]
  exact ⟨fun hph => by rw [if_neg (by exact hph)], fun hph => by rw [if_pos (by exact hph)]⟩

/-! ### The bytes of a response (R88) -/

theorem statusCode_injective : Function.Injective Status.code := by
  intro a b; cases a <;> cases b <;> decide

theorem causeCode_injective : Function.Injective Cause.code := by
  intro a b; cases a <;> cases b <;> decide

/-- The payload length as R88 sends it gives the length back, below 2^64. -/
theorem eq_of_beBytes_eq {m n : Nat} (hm : m < 2 ^ 64) (hn : n < 2 ^ 64) (h : beBytes 8 m = beBytes 8 n) : m = n := by
  have hu := congrArg unbe h
  rw [unbe_beBytes, unbe_beBytes] at hu
  omega

/-- A response with the bytes after it, cut at its length field. -/
theorem responseBytes_append (st : Status) (c : Cause) (o r : List Byte) :
    responseBytes st c o ++ r = [st.code, c.code, 0, 0, 0, 0, 0, 0] ++ (beBytes 8 o.length ++ (o ++ r)) := by
  simp only [responseBytes, List.append_assoc]

/-- A response can be read back from a stream: the fields before the payload have a fixed length, and one of them is the
length of the payload. -/
theorem responseBytes_append_injective {st₁ st₂ : Status} {c₁ c₂ : Cause} {o₁ o₂ r₁ r₂ : List Byte}
    (h₁ : o₁.length < 2 ^ 64) (h₂ : o₂.length < 2 ^ 64)
    (h : responseBytes st₁ c₁ o₁ ++ r₁ = responseBytes st₂ c₂ o₂ ++ r₂) :
    st₁ = st₂ ∧ c₁ = c₂ ∧ o₁ = o₂ ∧ r₁ = r₂ := by
  rw [responseBytes_append, responseBytes_append] at h
  obtain ⟨hcodes, htail⟩ := List.append_inj h rfl
  obtain ⟨hlen, hbody⟩ := List.append_inj htail (by rw [beBytes_length, beBytes_length])
  obtain ⟨ho, hr⟩ := List.append_inj hbody (eq_of_beBytes_eq h₁ h₂ hlen)
  simp only [List.cons.injEq, and_true] at hcodes
  exact ⟨statusCode_injective hcodes.1, causeCode_injective hcodes.2, ho, hr⟩

/-- Settles O7: the fields stand at fixed places, and a response can be read back from a stream. -/
theorem responseBytesAreTheDescriptor : Obligations.ResponseBytesAreTheDescriptor := by
  refine ⟨fun st c out => ⟨?_, ?_, ?_, ?_⟩, fun _ _ _ _ _ _ _ _ => responseBytes_append_injective, rfl, rfl⟩
  · simp [responseBytes]; omega
  · simp [responseBytes]
  · have := unbe_beBytes 8 out.length
    simp [responseBytes, this]
  · simp [responseBytes]

/-! ### The placed table word (log 14) -/

/-- Placing a word drops the resets asserted now, so that none is due. -/
theorem resetDue_eq_false_of_dropWhile {s : State} {l : List ResetInput}
    (h : s.resets = l.dropWhile fun r => r.after == 0) : s.resetDue = false := by
  by_contra hdue
  obtain ⟨b, later, e⟩ := (resetDue_iff s).1 (by simpa using hdue)
  have hhead := List.head_dropWhile_not (fun r : ResetInput => r.after == 0) (by rw [← h, e]; simp)
  simp only [← h, e, List.head_cons, BEq.rfl] at hhead
  cases hhead

theorem zeroPayloadBytes_ne_nil (ch : Channel) (h : Block) : zeroPayloadBytes ch h ≠ [] := by
  simp [zeroPayloadBytes, ← List.length_eq_zero_iff]

/-- What `decodeTableWord` names is what the decoder reads from the word with its zero payload. -/
theorem decode_of_decodeTableWord {n w : Nat} {i : Instr} {ch : Channel} (hch : channelOfWord (BitVec.ofNat 128 w) = ch)
    (h : decodeTableWord n w = some i) (rest : List Byte) :
    decode ch (zeroPayloadBytes ch (BitVec.ofNat 128 w) ++ rest) = .instr i rest := by
  simp only [decodeTableWord, hch] at h
  rw [decode_zeroPayloadBytes]
  cases hd : decodeFramed ch (BitVec.ofNat 128 w)
      (List.replicate (payloadLength ch (BitVec.ofNat 128 w)) 0) with
  | error why => rw [hd] at h; cases h
  | ok j => rw [hd] at h; cases h; rfl

/-- Settles O10: the word stands where its channel is read, and no reset is due. -/
theorem placedWordIsRunByTheNextStep : Obligations.PlacedWordIsRunByTheNextStep := by
  intro s n w i hn h
  unfold State.withFetchWord placeWord
  cases hch : channelOfWord (BitVec.ofNat 128 w) with
  | hc =>
    exact step_command (by exact hn) (resetDue_eq_false_of_dropWhile rfl) rfl (decode_of_decodeTableWord hch h s.hc)
  | ep =>
    have hd := decode_of_decodeTableWord hch h []
    rw [List.append_nil] at hd
    exact step_request (by exact hn) (resetDue_eq_false_of_dropWhile rfl) (zeroPayloadBytes_ne_nil _ _) hd

end Sys2Proof.Proofs
end

section
/-! PROOFS. The family 40_engine_primitives.md. First what the engine answers to each of its five requests; then counter
mode on its blocks and on a sequence in two parts; then the increment and its iterates; then the printed vectors. -/

namespace Sys2Proof.Proofs

open Sys2Proof.Machine Sys2Proof.Laws

/-! ### The five requests (R110 to R115) -/

theorem exec_engDerive (n : List Byte) (s : State) :
    exec (.engDerive n) s = .next (s.exchange (.engDerive n) (blockBytes (engDerive s.engine n))) := rfl

theorem exec_engInc (c : Block) (s : State) :
    exec (.engInc c) s = .next (s.exchange (.engInc c) (blockBytes (engInc s.engine c))) := rfl

theorem exec_engCtr (c : Block) (d : List Byte) (s : State) :
    exec (.engCtr c d) s = .next
      (s.exchange (.engCtr c d) ((engCtr s.engine c d).1 ++ blockBytes (engCtr s.engine c d).2)) := rfl

theorem exec_engGhash (y : Block) (d : List Byte) (s : State) :
    exec (.engGhash y d) s = .next (s.exchange (.engGhash y d) (blockBytes (engGhash s.engine y d))) := rfl

theorem exec_engEnc (b : Block) (s : State) :
    exec (.engEnc b) s = .next (s.exchange (.engEnc b) (blockBytes (engEnc s.engine b))) := rfl

/-- Settles O49: a request only appends its exchange to the record of EP. -/
theorem engineRequestsAreAnswered : Obligations.EngineRequestsAreAnswered := fun s n d b =>
  ⟨exec_engDerive n s, exec_engInc b s, exec_engCtr b d s, exec_engGhash b d s, exec_engEnc b s⟩

/-! ### Counter mode unrolls and composes (R117 EL2) -/

/-- The loop of R113 on two runs of blocks: the second run starts from the counter the first leaves. -/
theorem ctrLoop_append (e : Engine) (c : Block) (l₁ l₂ : List Block) :
    ctrLoop e c (l₁ ++ l₂) =
      ((ctrLoop e c l₁).1 ++ (ctrLoop e (ctrLoop e c l₁).2 l₂).1, (ctrLoop e (ctrLoop e c l₁).2 l₂).2) := by
  induction l₁ generalizing c with
  | nil => rfl
  | cons b l₁ ih => simp only [List.cons_append, ctrLoop, ih, List.append_assoc]

theorem engCtr_append (e : Engine) (c : Block) (d₁ d₂ : List Byte) (h : d₁.length % 16 = 0) :
    engCtr e c (d₁ ++ d₂) =
      ((engCtr e c d₁).1 ++ (engCtr e (engCtr e c d₁).2 d₂).1, (engCtr e (engCtr e c d₁).2 d₂).2) := by
  simp only [engCtr, blocksOf_append d₁ d₂ h, ctrLoop_append]

/-- One block goes through one block of keystream, and the counter is incremented once. -/
theorem engCtr_one_block (e : Engine) (c : Block) {d : List Byte} (h : d.length = 16) :
    engCtr e c d = (xorBytes d (blockBytes (engEnc e c)), engInc e c) := by
  have hfst : (engCtr e c d).1 = xorBytes d (blockBytes (engEnc e c)) := by
    rw [engCtr_fst e c d (by omega), h, keystream_succ]
    exact congrArg _ (List.append_nil _)
  have hsnd : (engCtr e c d).2 = engInc e c := by rw [engCtr_snd, h]; rfl
  exact Prod.ext hfst hsnd

/-- Settles O50: EL2 by the blocks of the loop, EL3 by the fold, EL4 by the width of a block. -/
theorem engineLawsHold : Obligations.EngineLawsHold := fun e c y d₁ d₂ h₁ _ =>
  ⟨engCtr_one_block e c, engCtr_append e c d₁ d₂ h₁, engGhash_append e y d₁ d₂ h₁, engCtr_length e c d₁ h₁,
    fun b _ => blockBytes_length b⟩

/-! ### The increment (R112, log 7) -/

/-- The 96 high-order bits are kept. -/
theorem engInc_high (e : Engine) (c : Block) : (engInc e c).extractLsb' 32 96 = c.extractLsb' 32 96 :=
  BitVec.extractLsb'_append_eq_left

/-- The 32 low-order bits are increased by one, as a word of 32 bits. -/
theorem engInc_low (e : Engine) (c : Block) : (engInc e c).extractLsb' 0 32 = c.extractLsb' 0 32 + 1 :=
  BitVec.extractLsb'_append_eq_right

theorem iterate_engInc_low (e : Engine) (c : Block) (k : Nat) :
    ((engInc e)^[k] c).extractLsb' 0 32 = c.extractLsb' 0 32 + BitVec.ofNat 32 k := by
  induction k with
  | zero => exact (BitVec.add_zero _).symm
  | succ k ih =>
    rw [Function.iterate_succ_apply', engInc_low, ih, BitVec.add_assoc, BitVec.ofNat_add]
    rfl

/-- The low-order word comes back after a multiple of 2^32 increments only. -/
theorem dvd_of_iterate_engInc_eq {e : Engine} {c : Block} {k : Nat} (h : (engInc e)^[k] c = c) : 2 ^ 32 ∣ k := by
  have hlow := iterate_engInc_low e c k
  rw [h] at hlow
  have hzero : BitVec.ofNat 32 k = 0#32 := BitVec.add_right_eq_self.1 hlow.symm
  exact Nat.dvd_of_mod_eq_zero (by simpa using congrArg BitVec.toNat hzero)

/-- Settles O51: the low-order word counts the increments modulo 2^32. -/
theorem incrementIsLowThirtyTwoBits : Obligations.IncrementIsLowThirtyTwoBits := by
  refine ⟨fun e c => ⟨engInc_high e c, ?_⟩, fun e c k hpos hlt hret => ?_⟩
  · rw [engInc_low, BitVec.toNat_add]; rfl
  · exact Nat.not_dvd_of_pos_of_lt hpos hlt (dvd_of_iterate_engInc_eq hret)

/-! ### The instantiations (R122, R123, log 9) -/

/-- Settles O52: the kernel runs the model on V-P2, V-P10 and V-P12 under TOY, then on V-P20 (the hash subkey) and
V-P25 (a product with it) under AES0. -/
theorem instantiationsMatchTheVectors : Obligations.InstantiationsMatchTheVectors :=
  ⟨by decide +kernel, by decide +kernel, by decide +kernel, by decide +kernel, by decide +kernel⟩

end Sys2Proof.Proofs
end

section
/-! PROOFS. The family 41_initialize.md. First the three commands as one procedure in three modes, with its two outcomes;
then the obligations. -/

namespace Sys2Proof.Proofs

open Sys2Proof.Machine Sys2Proof.Laws

/-! ### The three commands are one procedure (R130 to R133) -/

/-- INIT_ENC, INIT_DEC and INIT_VFY differ in the mode alone. -/
theorem Opens.exec_eq {i : Instr} {m : Mode} {n a : List Byte} (h : Opens i m n a) (s : State) :
    exec i s = initWith m n a s := by
  rcases h with ⟨rfl, rfl⟩ | ⟨rfl, rfl⟩ | ⟨rfl, rfl⟩ <;> rfl

theorem Opens.exec_accepted {i : Instr} {m : Mode} {n a : List Byte} {s : State} (h : Opens i m n a)
    (hp : s.phase ≠ .faulted) (hn : n.length = s.nsize.toNat) : exec i s = .next (s.afterInit m n a) :=
  (h.exec_eq s).trans (initWith_accepted hp hn)

theorem Opens.exec_badNonce {i : Instr} {m : Mode} {n a : List Byte} {s : State} (h : Opens i m n a)
    (hp : s.phase ≠ .faulted) (hn : n.length ≠ s.nsize.toNat) : exec i s = .next (s.afterFatal .badNonceLen) :=
  (h.exec_eq s).trans (initWith_badNonce hp hn)

theorem opens_initEnc (n a : List Byte) : Opens (.initEnc n a) .enc n a := .inl ⟨rfl, rfl⟩

theorem opens_initDec (n a : List Byte) : Opens (.initDec n a) .dec n a := .inr (.inl ⟨rfl, rfl⟩)

theorem opens_initVfy (n a : List Byte) : Opens (.initVfy n a) .vfy n a := .inr (.inr ⟨rfl, rfl⟩)

/-- Each of the three commands opens a message in some mode. -/
theorem exists_opens {i : Instr} {n a : List Byte} (h : i ∈ [Instr.initEnc n a, .initDec n a, .initVfy n a]) :
    ∃ m, Opens i m n a := by
  simp only [List.mem_cons, List.not_mem_nil, or_false] at h
  rcases h with rfl | rfl | rfl
  · exact ⟨.enc, opens_initEnc n a⟩
  · exact ⟨.dec, opens_initDec n a⟩
  · exact ⟨.vfy, opens_initVfy n a⟩

/-! ### The obligations -/

/-- Settles O16, by the nonce length. The bound on the associated data keeps 8 * ADLEN inside ADBITS. -/
theorem initOpensAMessage : Obligations.InitOpensAMessage := by
  intro s n a hp ha
  refine ⟨fun hn => ⟨?_, ?_, ?_, ?_⟩, fun hn => ⟨?_, ?_, ?_⟩⟩
  · exact (opens_initEnc n a).exec_accepted hp hn
  · exact (opens_initDec n a).exec_accepted hp hn
  · exact (opens_initVfy n a).exec_accepted hp hn
  · exact (afterInit_inMessage s .enc n a hn ha).adbits
  · exact (opens_initEnc n a).exec_badNonce hp hn
  · exact (opens_initDec n a).exec_badNonce hp hn
  · exact (opens_initVfy n a).exec_badNonce hp hn

/-- Settles O17: the length check comes first in each of the three commands, and fault entry asks nothing of EP. -/
theorem wrongNonceLengthIsFatal : Obligations.WrongNonceLengthIsFatal := by
  intro s n a hp hn i hi
  obtain ⟨m, ho⟩ := exists_opens hi
  exact ⟨ho.exec_badNonce hp hn, rfl, rfl⟩

end Sys2Proof.Proofs
end

section
/-! PROOFS. The family 42_next.md. First when a buffer holds a whole block; then NEXT by its checks, and what it leaves
in the registers; then the two commands of a verify-only message; then the obligations. -/

namespace Sys2Proof.Proofs

open Sys2Proof.Machine Sys2Proof.Laws

/-! ### Whether the buffer holds a whole block (R142) -/

theorem wholeBytes_pos_iff (d : List Byte) : 0 < wholeBytes d ↔ 16 ≤ d.length := by
  rw [wholeBytes]; omega

theorem wholeBytes_eq_zero_iff (d : List Byte) : wholeBytes d = 0 ↔ d.length < 16 := by
  rw [wholeBytes]; omega

/-! ### NEXT by its checks (R140, R141) -/

/-- Within the limit the fragment is taken. -/
theorem exec_next_accepted {s : State} {d : List Byte} (hp : s.phase = .active)
    (hl : s.ctlen.toNat + d.length ≤ Config.limit) : exec (.next d) s = .next (takeFragment d s) :=
  execNext_accepted hp hl

/-- Beyond the limit, cause 3 and nothing else. -/
theorem exec_next_overLimit {s : State} {d : List Byte} (hp : s.phase = .active)
    (hl : Config.limit < s.ctlen.toNat + d.length) : exec (.next d) s = .next (s.afterFatal .lengthLimit) := by
  have hf : firstFailing (.next d) s = some .lengthLimit := by simp [firstFailing, hp, hl]
  exact exec_firstFailing (by simp [hp]) hf

/-- A fragment that completes no block is absorbed, in every mode (R143). -/
theorem exec_next_absorb {s : State} {d : List Byte} (hp : s.phase = .active)
    (hl : s.ctlen.toNat + d.length ≤ Config.limit) (h : (s.pending ++ d).length < 16) :
    exec (.next d) s = .next
      { s with
        ctlen := BitVec.ofNat 64 (s.ctlen.toNat + d.length)
        pb := pendingCells (s.pending ++ d)
        pblen := BitVec.ofNat 4 (s.pending ++ d).length
        hr := s.hr ++ responseBytes .ok .noFault [] } :=
  (exec_next_accepted hp hl).trans (congrArg _ (takeFragment_absorb h))

/-! ### What an accepted NEXT leaves -/

theorem takeFragment_ctlen_toNat {s : State} {d : List Byte} (hl : s.ctlen.toNat + d.length ≤ Config.limit) :
    (takeFragment d s).ctlen.toNat = s.ctlen.toNat + d.length := by
  obtain ⟨-, -, hct, -⟩ := takeFragment_spec s d
  have hlim : Config.limit = 68719476704 := rfl
  rw [hct, BitVec.toNat_ofNat]
  omega

theorem takeFragment_canonical (s : State) (d : List Byte) :
    (takeFragment d s).pb = pendingCells (takeFragment d s).pending := by
  obtain ⟨-, -, -, hpb, -⟩ := takeFragment_spec s d
  rw [hpb, takeFragment_pending]

theorem buffer_length (s : State) (d : List Byte) : (s.pending ++ d).length = s.pblen.toNat + d.length := by
  rw [List.length_append, pending_length]

theorem takeFragment_pblen_toNat (s : State) (d : List Byte) :
    (takeFragment d s).pblen.toNat = (s.pblen.toNat + d.length) % 16 := by
  rw [← pending_length, takeFragment_pending, restPart_length, buffer_length]

/-- The output is the whole blocks of the buffer, transformed; nothing in VFY (R147). -/
theorem nextOut_length (s : State) (d : List Byte) :
    (nextOut s d).length = if s.mode = .vfy then 0 else 16 * ((s.pblen.toNat + d.length) / 16) := by
  unfold nextOut
  split
  · rfl
  · rw [engCtr_length _ _ _ (nextHead_length_mod s d), nextHead, wholePart_length, buffer_length]

/-- Absorbing nothing into a canonical Pending Buffer leaves the registers alone (R148 (a)). -/
theorem takeFragment_nil {s : State} (hpb : s.pb = pendingCells s.pending) :
    takeFragment [] s = { s with hr := s.hr ++ responseBytes .ok .noFault [] } := by
  have hlen : (s.pending ++ []).length < 16 := by
    rw [List.append_nil]
    exact Nat.lt_succ_of_le (pending_length_le s)
  rw [takeFragment_absorb hlen, List.append_nil, pending_length]
  ext1 <;> simp [← hpb]

/-! ### A verify-only message (R146, 43_finalize.md R153) -/

/-- Between `s` and `t` only folds were asked, CTR was kept while the message is open, and the response sent has no
payload. -/
structure OnlyFolded (s t : State) : Prop where
  folds : ∃ asked : List (Block × List Byte), t.epLog = s.epLog ++
    asked.map fun r => ⟨encode (.engGhash r.1 r.2), blockBytes (engGhash s.engine r.1 r.2)⟩
  ctr : t.phase = .active → t.ctr = s.ctr
  response : ∃ st c, t.hr = s.hr ++ responseBytes st c []

/-- A command that a check stops asks nothing. -/
theorem onlyFolded_afterFatal (s : State) (c : Cause) : OnlyFolded s (s.afterFatal c) where
  folds := ⟨[], (List.append_nil _).symm⟩
  ctr := nofun
  response := ⟨.fatal, c, rfl⟩

theorem onlyFolded_takeFragment {s : State} (hm : s.mode = .vfy) (d : List Byte) :
    OnlyFolded s (takeFragment d s) := by
  by_cases h : 16 ≤ (s.pending ++ d).length
  · rw [takeFragment_vfy hm h]
    exact ⟨⟨[(s.y, wholePart (s.pending ++ d))], rfl⟩, fun _ => rfl, .ok, .noFault, rfl⟩
  · rw [takeFragment_absorb (not_le.1 h)]
    exact ⟨⟨[], (List.append_nil _).symm⟩, fun _ => rfl, .ok, .noFault, rfl⟩

/-- Outside DEC, FIN_DEC asks to fold the padded pending bytes, if any, and then the length block. -/
theorem openAsked_folds {s : State} (hm : s.mode ≠ .dec) :
    ∃ asked : List (Block × List Byte), exchanges (openAsked s) =
      asked.map fun r => ⟨encode (.engGhash r.1 r.2), blockBytes (engGhash s.engine r.1 r.2)⟩ := by
  let y₁ := engGhash s.engine s.y (pad16 s.pending)
  let l := lengthBlock s.adbits s.ctlen
  by_cases hz : s.pblen = 0
  · exact ⟨[(y₁, l)], by simp only [openAsked, hz, ne_eq, not_true_eq_false, false_and, if_true, if_false]; rfl⟩
  · exact ⟨[(s.y, pad16 s.pending), (y₁, l)], by simp only [openAsked, hz, hm, and_false, if_false]; rfl⟩

/-- FIN_DEC has no tail to send outside DEC, whichever its verdict. -/
theorem onlyFolded_closeOpen {s : State} (hm : s.mode = .vfy) {tag : List Byte} (ht : tag.length = 16) :
    OnlyFolded s (closeOpen tag s) := by
  obtain ⟨asked, hasked⟩ := openAsked_folds (s := s) (by simp [hm])
  have htail : openedTail s = [] := by rw [openedTail, if_neg (by simp [hm])]
  rw [closeOpen_eq tag s ht, htail]
  refine ⟨⟨asked, congrArg (s.epLog ++ ·) hasked⟩, nofun, ?_⟩
  by_cases hv : tag = blockBytes (expectedTag s)
  · rw [if_pos hv]; exact ⟨.ok, .noFault, rfl⟩
  · rw [if_neg hv]; exact ⟨.authFail, .noFault, rfl⟩

/-! ### The obligations -/

/-- Settles O18: the counter is that of `Eng.ctr`, and the path is that of a buffer with or without a whole block. -/
theorem nextEncryptsThenFolds : Obligations.NextEncryptsThenFolds := by
  intro s d hp hm hl buf n head rest o
  have hhead : head.length / 16 = n / 16 := congrArg (· / 16) (wholePart_length buf)
  refine ⟨hhead ▸ engCtr_snd s.engine s.ctr head, fun hn => ?_, fun hn => ?_⟩
  · exact (exec_next_accepted hp hl).trans (congrArg _ (takeFragment_enc hm ((wholeBytes_pos_iff buf).1 hn)))
  · exact exec_next_absorb hp hl ((wholeBytes_eq_zero_iff buf).1 hn)

/-- Settles O19, by whether the buffer holds a whole block. -/
theorem nextFoldsThenDecrypts : Obligations.NextFoldsThenDecrypts := by
  intro s d hp hm hl buf n head rest o
  refine ⟨fun hn => ?_, fun hn => ?_⟩
  · exact (exec_next_accepted hp hl).trans (congrArg _ (takeFragment_dec hm ((wholeBytes_pos_iff buf).1 hn)))
  · exact exec_next_absorb hp hl ((wholeBytes_eq_zero_iff buf).1 hn)

/-- Settles O20, by whether the buffer holds a whole block. -/
theorem nextVerifyOnlyFolds : Obligations.NextVerifyOnlyFolds := by
  intro s d hp hm hl buf n head rest
  refine ⟨fun hn => ?_, fun hn => ?_⟩
  · exact (exec_next_accepted hp hl).trans (congrArg _ (takeFragment_vfy hm ((wholeBytes_pos_iff buf).1 hn)))
  · exact exec_next_absorb hp hl ((wholeBytes_eq_zero_iff buf).1 hn)

/-- Settles O21. With fewer than 16 bytes in the buffer the rest is the whole buffer. -/
theorem nextLeavesTheRestPending : Obligations.NextLeavesTheRestPending := by
  intro s d hp hl
  refine ⟨takeFragment d s, exec_next_accepted hp hl, takeFragment_pending s d, takeFragment_pblen_toNat s d,
    takeFragment_canonical s d, takeFragment_ctlen_toNat hl, fun h => ?_⟩
  have hlen : (s.pending ++ d).length < 16 := by rwa [buffer_length]
  have hpend : (takeFragment d s).pending = s.pending ++ d := by
    rw [takeFragment_pending, restPart, (wholeBytes_eq_zero_iff _).2 hlen, List.drop_zero]
  refine ⟨hpend, ?_, ?_⟩ <;> rw [takeFragment_absorb hlen]

/-- Settles O22. -/
theorem nextOutputIsWholeBlocks : Obligations.NextOutputIsWholeBlocks := by
  intro s d hp hl
  obtain ⟨-, -, -, -, -, hr, -⟩ := takeFragment_spec s d
  exact ⟨_, nextOut s d, exec_next_accepted hp hl, hr, nextOut_length s d⟩

/-- Settles O23, by the two sides of the limit test. -/
theorem lengthLimitIsExact : Obligations.LengthLimitIsExact := by
  refine ⟨rfl, fun s d hp => ⟨fun h => exec_next_overLimit hp h, fun h => ?_⟩⟩
  obtain ⟨-, -, -, -, -, -, -, -, -, hph, hca, -⟩ := takeFragment_spec s d
  exact ⟨_, exec_next_accepted hp h, hph.trans hp, hca, takeFragment_ctlen_toNat h⟩

/-- Settles O42, by the effect of the command: of those on an ACTIVE state, NEXT and FIN_DEC have fault entry or the
effect of their own rule. -/
theorem verifyOnlyNeverMakesKeystream : Obligations.VerifyOnlyNeverMakesKeystream := by
  intro s t i hp hm hi h
  have hch : i.channel = .hc := by rcases hi with ⟨d, rfl⟩ | ⟨tag, rfl⟩ <;> rfl
  suffices hfold : OnlyFolded s t from ⟨hfold.folds, hfold.ctr, hfold.response⟩
  cases effect_of_exec hch h with
  | latched hf => rw [hp] at hf; cases hf
  | fatal => exact onlyFolded_afterFatal s _
  | tagsize _ _ htag => simp [htag] at hi
  | init _ _ hopen => rcases hopen with ⟨rfl, -⟩ | ⟨rfl, -⟩ | ⟨rfl, -⟩ <;> simp at hi
  | next => exact onlyFolded_takeFragment hm _
  | close _ hf hclose =>
    rcases exec_close hp hf hclose h with ⟨rfl, -⟩ | ⟨tag, -, ht, e⟩
    · simp at hi
    · rw [e]; exact onlyFolded_closeOpen hm ht

/-- Settles O43: the message is extended, and outside VFY the output continues the one-shot bytes. -/
theorem nextExtendsTheMessage : Obligations.NextExtendsTheMessage := by
  intro s n a x d hp h hl
  obtain ⟨-, -, -, -, -, hr, -, -, hm, -⟩ := takeFragment_spec s d
  refine ⟨_, nextOut s d, exec_next_accepted hp (h.ctlen ▸ hl), takeFragment_inMessage d h hl, hm, hr, ?_⟩
  by_cases hv : s.mode = .vfy
  · rw [if_pos hv, nextOut, if_pos hv]
  · rw [if_neg hv, nextOut_continues d h hv, List.length_append]

/-- Settles O24. -/
theorem emptyFragmentChangesNothing : Obligations.EmptyFragmentChangesNothing := by
  intro s hp hl hpb
  exact (exec_next_accepted hp (by simpa using hl)).trans (congrArg _ (takeFragment_nil hpb))

end Sys2Proof.Proofs
end

section
/-! PROOFS. The family 43_finalize.md. First the checks of the two commands and the tag comparison; then their effects,
with the tail and the tag as functions of the registers; then one message from INIT_* to its close, which the one-shot
statements and the round trip are read from. -/

namespace Sys2Proof.Proofs

open Sys2Proof.Machine Sys2Proof.Laws

/-! ### The checks (R154, R157) -/

/-- Settles O29: the collected difference is zero exactly when every byte pair is equal. -/
theorem ctEqualIsEquality : Obligations.CtEqualIsEquality := by
  intro a b ha hb
  rw [ctEqual, beq_iff_eq, differenceBits_eq_zero a b (ha.trans hb.symm)]

/-- Settles O28: in each case the check named is the first that fails. -/
theorem finaliseLegality : Obligations.FinaliseLegality := by
  intro s tag h
  refine ⟨fun hp => ⟨?_, ?_⟩, fun hp hm => ?_, fun hp hm => ?_, fun hp hm ht => ?_⟩
  · exact exec_firstFailing h (by simp [firstFailing, hp])
  · exact exec_firstFailing h (by simp [firstFailing, hp])
  · exact exec_firstFailing h (by simp [firstFailing, hp, hm])
  · exact exec_firstFailing h (by simp [firstFailing, hp, hm])
  · exact exec_firstFailing h (by simp [firstFailing, hp, hm, ht])

/-! ### The tail and the tag (R150, R151) -/

/-- The pending bytes under one more keystream block: the ciphertext tail in ENC, the plaintext tail in DEC. -/
def pendingTail (s : State) : List Byte := xorBytes s.pending (blockBytes (engEnc s.engine s.ctr))

/-- The tag FIN_ENC sends. -/
def sealedTag (s : State) : Block :=
  engGhash s.engine (engGhash s.engine s.y (pad16 (pendingTail s))) (lengthBlock s.adbits s.ctlen) ^^^ s.tm

/-- Of the keystream block only the first PBLEN bytes meet a pending byte. -/
theorem pendingTail_eq_take (s : State) :
    xorBytes s.pending ((blockBytes (engEnc s.engine s.ctr)).take s.pblen.toNat) = pendingTail s := by
  rw [← pending_length, xorBytes_take, pendingTail]

theorem pendingTail_eq_nil {s : State} (h : s.pblen = 0) : pendingTail s = [] := by
  rw [pendingTail, (pblen_eq_zero_iff s).1 h]; rfl

theorem openedTail_dec {s : State} (hm : s.mode = .dec) : openedTail s = pendingTail s := if_pos hm

theorem openedTail_vfy {s : State} (hm : s.mode = .vfy) : openedTail s = [] := if_neg (by simp [hm])

/-! ### What the two commands do (R152, R153) -/

/-- FIN_ENC sends tail and tag, whether or not the tail is empty. -/
theorem closeSeal_sends (s : State) : ∃ asked,
    closeSeal s = s.afterClose (responseBytes .ok .noFault (pendingTail s ++ blockBytes (sealedTag s))) asked := by
  by_cases h : s.pblen = 0
  · rw [sealedTag, pendingTail_eq_nil h, pad16_nil, engGhash_nil, List.nil_append]
    exact ⟨_, closeSeal_noTail h⟩
  · exact ⟨_, closeSeal_tail h⟩

/-- FIN_DEC by its verdict. -/
theorem exec_finDec_accepted {s : State} {tag : List Byte} (hp : s.phase = .active) (hm : s.mode ≠ .enc)
    (ht : tag.length = 16) : exec (.finDec tag) s = .next (s.afterClose
      (if tag = blockBytes (expectedTag s) then responseBytes .ok .noFault (openedTail s)
       else responseBytes .authFail .noFault []) (openAsked s)) :=
  (execFinDec_accepted hp hm ht).trans (congrArg _ (closeOpen_eq tag s ht))

/-- The two verdicts of FIN_DEC, with the tail and the requests of its mode. -/
theorem exec_finDec_verdicts {s : State} {tag tail : List Byte} {asked : List (Instr × List Byte)}
    (hp : s.phase = .active) (hm : s.mode ≠ .enc) (ht : tag.length = 16) (htail : openedTail s = tail)
    (hasked : openAsked s = asked) :
    (tag = blockBytes (expectedTag s) →
      exec (.finDec tag) s = .next (s.afterClose (responseBytes .ok .noFault tail) asked)) ∧
    (tag ≠ blockBytes (expectedTag s) →
      exec (.finDec tag) s = .next (s.afterClose (responseBytes .authFail .noFault []) asked)) := by
  rw [exec_finDec_accepted hp hm ht, htail, hasked]
  exact ⟨fun hv => by rw [if_pos hv], fun hv => by rw [if_neg hv]⟩

/-- With nothing pending FIN_DEC asks for the fold of the lengths alone. -/
theorem openAsked_noTail {s : State} (h : s.pblen = 0) :
    openAsked s =
      (let l := lengthBlock s.adbits s.ctlen
       [(.engGhash s.y l, blockBytes (engGhash s.engine s.y l))]) := by
  simp [openAsked, h, (pblen_eq_zero_iff s).1 h]

/-- With bytes pending in DEC: their fold, their keystream, the fold of the lengths. -/
theorem openAsked_dec {s : State} (h : s.pblen ≠ 0) (hm : s.mode = .dec) :
    openAsked s =
      (let y₁ := engGhash s.engine s.y (pad16 s.pending)
       let l := lengthBlock s.adbits s.ctlen
       [(.engGhash s.y (pad16 s.pending), blockBytes y₁), (.engEnc s.ctr, blockBytes (engEnc s.engine s.ctr)),
        (.engGhash y₁ l, blockBytes (engGhash s.engine y₁ l))]) := by
  rw [openAsked, if_neg h, if_pos ⟨h, hm⟩]; rfl

/-- With bytes pending in VFY: their fold and the fold of the lengths. -/
theorem openAsked_vfy {s : State} (h : s.pblen ≠ 0) (hm : s.mode = .vfy) :
    openAsked s =
      (let y₁ := engGhash s.engine s.y (pad16 s.pending)
       let l := lengthBlock s.adbits s.ctlen
       [(.engGhash s.y (pad16 s.pending), blockBytes y₁),
        (.engGhash y₁ l, blockBytes (engGhash s.engine y₁ l))]) := by
  rw [openAsked, if_neg h, if_neg (by simp [hm])]; rfl

/-- Settles O25, by whether bytes are pending. -/
theorem finEncSealsTheMessage : Obligations.FinEncSealsTheMessage := by
  intro s hp hm ks tail y₁ l
  have htail : tail = pendingTail s := pendingTail_eq_take s
  refine ⟨fun h => ?_, fun h => ?_⟩
  · simp only [y₁, htail]
    exact (execFinEnc_accepted hp hm).trans (congrArg _ (closeSeal_tail h))
  · exact (execFinEnc_accepted hp hm).trans (congrArg _ (closeSeal_noTail h))

/-- Settles O26: both verdicts ask the same, and the tail is the plaintext tail. -/
theorem finDecOpensTheMessage : Obligations.FinDecOpensTheMessage := by
  intro s tag hp hm ht ks tail y₁ l asked
  have htail : openedTail s = tail := (openedTail_dec hm).trans (pendingTail_eq_take s).symm
  have hasked : openAsked s = asked := by
    by_cases hz : s.pblen = 0
    · exact (openAsked_noTail hz).trans (if_pos hz).symm
    · exact (openAsked_dec hz hm).trans (if_neg hz).symm
  exact exec_finDec_verdicts hp (by simp [hm]) ht htail hasked

/-- Settles O27: as in DEC, with no tail and no request for its keystream. -/
theorem finDecVerifiesTheMessage : Obligations.FinDecVerifiesTheMessage := by
  intro s tag hp hm ht y₁ l asked
  have hasked : openAsked s = asked := by
    by_cases hz : s.pblen = 0
    · exact (openAsked_noTail hz).trans (if_pos hz).symm
    · exact (openAsked_vfy hz hm).trans (if_neg hz).symm
  exact exec_finDec_verdicts hp (by simp [hm]) ht (openedTail_vfy hm) hasked

/-! ### The close of a message in progress (R158) -/

/-- The tail completes the one-shot bytes. -/
theorem take_append_pendingTail {t : State} {n a x : List Byte} (h : t.InMessage n a x) (hm : t.mode ≠ .vfy) :
    (gcmCipher t.engine n x).take (16 * (x.length / 16)) ++ pendingTail t = gcmCipher t.engine n x := by
  rw [pendingTail, h.pending, h.ctr, if_neg hm]
  exact (gcmCipher_tail t.engine n x).symm

/-- The whole blocks of the one-shot ciphertext are those folded so far. -/
theorem wholePart_gcmCipher (e : Engine) (n x : List Byte) :
    wholePart (gcmCipher e n x) = cipherOf .enc e n (wholePart x) := by
  have hl : (wholePart x).length / 16 = x.length / 16 := by rw [wholePart_length]; omega
  rw [wholePart, wholeBytes, gcmCipher_length, gcmCipher_take_whole, cipherOf, if_pos rfl, hl]

/-- What the one-shot ciphertext has after its whole blocks is the tail. -/
theorem restPart_gcmCipher {t : State} {n a x : List Byte} (h : t.InMessage n a x) (hm : t.mode ≠ .vfy) :
    restPart (gcmCipher t.engine n x) = pendingTail t := by
  apply List.append_cancel_left (as := wholePart (gcmCipher t.engine n x))
  rw [wholePart_append_restPart]
  conv_lhs => rw [← take_append_pendingTail h hm]
  rw [wholePart, wholeBytes, gcmCipher_length]

/-- The tag FIN_ENC sends is the one-shot tag of the ciphertext. -/
theorem sealedTag_eq {t : State} {n a x : List Byte} (h : t.InMessage n a x) (hm : t.mode = .enc) :
    sealedTag t = gcmTag t.engine n a (gcmCipher t.engine n x) := by
  have hlen : t.ctlen.toNat = (gcmCipher t.engine n x).length := by rw [gcmCipher_length, h.ctlen]
  rw [sealedTag, ← restPart_gcmCipher h (by simp [hm]), h.y, hm, ← wholePart_gcmCipher, h.tm]
  exact gcmTag_eq _ _ _ _ _ _ h.adbits hlen

/-! ### A message from INIT_* to its close (R158, 20_memory.md R55) -/

theorem execAll_singleton (i : Instr) (s : State) : execAll [i] s = exec i s := by
  rw [execAll]
  cases exec i s <;> rfl

theorem okResponses_append (l₁ l₂ : List (List Byte)) :
    okResponses (l₁ ++ l₂) = okResponses l₁ ++ okResponses l₂ := by
  simp [okResponses]

theorem okResponses_singleton (out : List Byte) : okResponses [out] = responseBytes .ok .noFault out := by
  simp [okResponses]

/-- `t` is an open message of `s` in mode `m` that has taken the fragments `fs`, with the outputs `outs` sent for INIT_*
and for each fragment. -/
structure MessageTaken (s t : State) (m : Mode) (n a : List Byte) (fs outs : List (List Byte)) : Prop where
  active : t.phase = .active
  mode : t.mode = m
  engine : t.engine = s.engine
  message : t.InMessage n a fs.flatten
  sent : t.hr = s.hr ++ okResponses outs
  count : outs.length = fs.length + 1
  output : m ≠ .vfy → outs.flatten = (gcmCipher s.engine n fs.flatten).take (16 * (fs.flatten.length / 16))
  silent : m = .vfy → outs = List.replicate (fs.length + 1) []

/-- INIT_* and any fragments within the limit leave the message that has taken them, for any command to close. -/
theorem exists_messageTaken {s : State} {i : Instr} {m : Mode} {n a : List Byte} {fs : List (List Byte)}
    (ho : Opens i m n a) (hp : s.phase ≠ .faulted) (hn : n.length = s.nsize.toNat) (ha : a.length < 2 ^ 61)
    (hl : fs.flatten.length ≤ Config.limit) :
    ∃ t outs, MessageTaken s t m n a fs outs ∧
      ∀ close, execAll (i :: fs.map Instr.next ++ [close]) s = exec close t := by
  obtain ⟨t, outs, hrun, hmsg, hact, hmode, -, ⟨-, hen, -⟩, hhr, hcount, -, hout, hvfy⟩ :=
    execAll_next fs (s := s.afterInit m n a) rfl (afterInit_inMessage s m n a hn ha) (by simpa using hl)
  refine ⟨t, [] :: outs, ⟨hact, hmode, hen, hmsg, ?_, by simp [hcount], hout, fun hm => ?_⟩, fun close => ?_⟩
  · rw [hhr]; simp [State.afterInit, okResponses]
  · rw [hvfy hm, List.replicate_succ]
  · have hopen : execAll (i :: fs.map Instr.next) s = .next t := by
      rw [execAll, ho.exec_accepted hp hn]
      exact hrun
    rw [execAll_append _ _ hopen, execAll_singleton]

/-- The outputs so far and the tail are the one-shot bytes. -/
theorem MessageTaken.flatten_append_tail {s t : State} {m : Mode} {n a : List Byte} {fs outs : List (List Byte)}
    (h : MessageTaken s t m n a fs outs) (hm : m ≠ .vfy) :
    outs.flatten ++ pendingTail t = gcmCipher s.engine n fs.flatten := by
  rw [h.output hm, ← h.engine]
  exact take_append_pendingTail h.message (h.mode ▸ hm)

/-- FIN_DEC on the open message: its verdict is that of the one-shot tag. -/
theorem MessageTaken.exec_finDec {s t : State} {m : Mode} {n a tag : List Byte} {fs outs : List (List Byte)}
    (h : MessageTaken s t m n a fs outs) (hm : m ≠ .enc) (htl : tag.length = 16) :
    exec (.finDec tag) t = .next (t.afterClose
      (if tag = blockBytes (gcmTag s.engine n a fs.flatten) then responseBytes .ok .noFault (openedTail t)
       else responseBytes .authFail .noFault []) (openAsked t)) := by
  have hmode : t.mode ≠ .enc := h.mode ▸ hm
  rw [exec_finDec_accepted h.active hmode htl, expectedTag_eq h.message hmode, h.engine]

/-- Settles O45: the open message has sent the whole blocks of the ciphertext, FIN_ENC sends its tail and its tag. -/
theorem encryptionIsOneShotGcm : Obligations.EncryptionIsOneShotGcm := by
  intro s n a fs hp hn ha hl c
  obtain ⟨t, outs, ht, hrun⟩ := exists_messageTaken (opens_initEnc n a) hp hn ha hl
  obtain ⟨asked, hclose⟩ := closeSeal_sends t
  have htag : sealedTag t = gcmTag s.engine n a c := by rw [sealedTag_eq ht.message ht.mode, ht.engine]
  refine ⟨_, outs ++ [pendingTail t ++ blockBytes (sealedTag t)],
    (hrun _).trans ((execFinEnc_accepted ht.active ht.mode).trans (congrArg _ hclose)), ?_, ?_, ?_, rfl,
    afterClose_dataZero t _ asked⟩
  · rw [okResponses_append, okResponses_singleton, ← List.append_assoc, ← ht.sent]; rfl
  · rw [List.length_append, ht.count]; rfl
  · rw [List.flatten_concat, ← List.append_assoc, ht.flatten_append_tail (by decide), htag]

/-- Settles O46: the open message has sent the whole blocks of the plaintext, and FIN_DEC has its tail to send. -/
theorem decryptionIsOneShotGcm : Obligations.DecryptionIsOneShotGcm := by
  intro s n a tag fs hp hn ha hl htl c p
  obtain ⟨t, outs, ht, hrun⟩ := exists_messageTaken (opens_initDec n a) hp hn ha hl
  refine ⟨_, outs, pendingTail t, (hrun _).trans (ht.exec_finDec (by decide) htl), ht.count, ht.output (by decide),
    ht.flatten_append_tail (by decide), ?_, rfl, afterClose_dataZero t _ _⟩
  rw [← openedTail_dec ht.mode, ← ht.sent]
  rfl

/-- Settles O47: the open message has sent nothing, and FIN_DEC has no tail to send. -/
theorem verificationIsOneShotGcm : Obligations.VerificationIsOneShotGcm := by
  intro s n a tag fs hp hn ha hl htl
  obtain ⟨t, outs, ht, hrun⟩ := exists_messageTaken (opens_initVfy n a) hp hn ha hl
  refine ⟨_, (hrun _).trans (ht.exec_finDec (by decide) htl), ?_, rfl, afterClose_dataZero t _ _⟩
  rw [← ht.silent rfl, ← ht.sent, openedTail_vfy ht.mode]
  by_cases hv : tag = blockBytes (gcmTag s.engine n a fs.flatten)
  · rw [if_pos hv, if_pos hv]; rfl
  · rw [if_neg hv, if_neg hv]; rfl

/-- Settles O48: the two one-shot statements, and the one-shot keystream applied twice cancels. -/
theorem decryptionUndoesEncryption : Obligations.DecryptionUndoesEncryption := by
  intro s u n a fs gs hs hu hen hns hn ha hl
  obtain ⟨t, outs, hrun, hhr, -, hout, -, -⟩ := encryptionIsOneShotGcm s n a fs hs hn ha hl
  refine ⟨t, outs, _, _, hrun, hhr, hout, blockBytes_length _, fun hg => ?_⟩
  have hgl : gs.flatten.length ≤ Config.limit := by rwa [hg, gcmCipher_length]
  obtain ⟨v, outs', tail, hrun', -, -, hplain, hhr', -, -⟩ :=
    decryptionIsOneShotGcm u n a _ gs hu (hns ▸ hn) ha hgl (blockBytes_length (gcmTag s.engine n a gs.flatten))
  rw [hen, hg] at hhr' hplain
  refine ⟨v, outs' ++ [tail], hg ▸ hrun', ?_, ?_⟩
  · rw [hhr', if_pos rfl, okResponses_append, okResponses_singleton, List.append_assoc]
  · rw [List.flatten_concat, hplain, gcmCipher_gcmCipher]

end Sys2Proof.Proofs
end

section
/-! PROOFS. The family 44_tagsize.md. First TAGSIZE outside FAULTED and the bytes of its response, then the legality of
its header; then the obligation. -/

namespace Sys2Proof.Proofs

open Sys2Proof.Machine Sys2Proof.Laws

/-! ### The answer and the header (R165, R166) -/

theorem exec_tagsize_accepted {s : State} (hp : s.phase ≠ .faulted) :
    exec .tagsize s = .next (s.respond .ok .noFault [16]) := unlessFaulted_not hp _

/-- The response announces one payload byte, and the byte is TAGSZ. -/
theorem tagsize_responseBytes :
    responseBytes .ok .noFault [16] = [0x01, 0, 0, 0, 0, 0, 0, 0, 0, 0, 0, 0, 0, 0, 0, 0x01, 0x10] := by decide

/-- TAGSIZE takes neither a nonce nor data, so that both lengths have to be zero (R84). -/
theorem commandOf_eq_tagsize_iff {h : Block} (hop : hdrOp h = 0x01) :
    commandOf h = .ok .tagsize ↔ hdrNlen h = 0 ∧ hdrDlen h = 0 ∧ hdrRsv1 h = 0 ∧ hdrRsv2 h = 0 := by
  rw [commandOf_eq_ok, hop]
  constructor
  · rintro ⟨-, hrsv1, hrsv2, hnlen, hdlen, -⟩
    exact ⟨hnlen rfl, hdlen rfl, hrsv1, hrsv2⟩
  · rintro ⟨hnlen, hdlen, hrsv1, hrsv2⟩
    exact ⟨rfl, hrsv1, hrsv2, fun _ => hnlen, fun _ => hdlen, nofun⟩

/-! ### The obligation -/

/-- Settles O15: the response is the only change, FAULTED answers any command with the latched cause, and the header has
no operand length left free. -/
theorem tagsizeAnswersSixteen : Obligations.TagsizeAnswersSixteen := by
  refine ⟨fun s hp => ?_, fun s hp => exec_faulted rfl hp, fun h hop => commandOf_eq_tagsize_iff hop⟩
  rw [exec_tagsize_accepted hp, State.respond, tagsize_responseBytes]

end Sys2Proof.Proofs
end

section
/-! PROOFS. The family 60_exceptions.md. First a command none of whose checks fails; then what a descriptor or a request
does to a block that is FAULTED; then the obligations. -/

namespace Sys2Proof.Proofs

open Sys2Proof.Machine Sys2Proof.Laws

/-! ### A command none of whose checks fails (R178) -/

/-- No rule of a command leads to FAULTED by itself. -/
theorem phaseAfter_ne_faulted (i : Instr) {p : Phase} (hp : p ≠ .faulted) : phaseAfter i p ≠ .faulted := by
  cases i with
  | initEnc | initDec | initVfy | next | finEnc | finDec => exact nofun
  | tagsize | engDerive | engInc | engCtr | engGhash | engEnc => exact hp

/-- An accepted command raises no fault and leaves CAUSE alone. -/
theorem CommandEffect.accepted_phase_cause {s t : State} {i : Instr} (h : CommandEffect s i t)
    (hp : s.phase ≠ .faulted) (hf : firstFailing i s = none) : t.phase ≠ .faulted ∧ t.cause = s.cause := by
  have hpc := h.phase_cause
  rw [if_neg hp, hf] at hpc
  obtain ⟨hph, hca⟩ := Prod.mk.inj hpc
  exact ⟨hph ▸ phaseAfter_ne_faulted i hp, hca⟩

/-- An accepted command answers OK, or AUTH_FAIL where FIN_DEC finds a wrong tag. -/
theorem CommandEffect.accepted_response {s t : State} {i : Instr} (h : CommandEffect s i t)
    (hexec : exec i s = .next t) (hp : s.phase ≠ .faulted) (hf : firstFailing i s = none) :
    ∃ st out, st ≠ .fatal ∧ t.hr = s.hr ++ responseBytes st .noFault out := by
  cases h with
  | latched hfaulted => exact absurd hfaulted hp
  | fatal _ hsome => rw [hf] at hsome; cases hsome
  | tagsize => exact ⟨.ok, [16], nofun, rfl⟩
  | init => exact ⟨.ok, [], nofun, rfl⟩
  | @next d =>
    obtain ⟨-, -, -, -, -, hr, -⟩ := takeFragment_spec s d
    exact ⟨.ok, nextOut s d, nofun, hr⟩
  | close hact _ hi =>
    rcases exec_close hact hf hi hexec with ⟨-, e⟩ | ⟨tag, -, ht, e⟩
    · obtain ⟨asked, hseal⟩ := closeSeal_sends s
      rw [e, hseal]
      exact ⟨.ok, _, nofun, rfl⟩
    · rw [e, closeOpen_eq tag s ht]
      by_cases hv : tag = blockBytes (expectedTag s)
      · rw [if_pos hv]; exact ⟨.ok, openedTail s, nofun, rfl⟩
      · rw [if_neg hv]; exact ⟨.authFail, [], nofun, rfl⟩

/-! ### An illegal descriptor (R175), and a block that is FAULTED (R177) -/

/-- The step that finds an illegal descriptor consumes it; the check for FAULTED comes before that of the header. -/
theorem step_illegal_next {s : State} {why : Illegal} {rest : List Byte} (hn : s.nsize ≠ 0) (hd : s.resetDue = false)
    (he : s.epPending = []) (h : decode .hc s.hc = .illegal why rest) :
    step s = .next (if s.phase = .faulted then ({ s.tick with hc := rest } : State).afterLatched
      else ({ s.tick with hc := rest } : State).afterFatal .illegalCommand) :=
  (step_illegal hn hd he h).trans (illegalCommand_eq _)

/-- The block is still FAULTED with the cause it latched, and its data registers are untouched. -/
def StaysFaulted (s t : State) : Prop := t.phase = .faulted ∧ t.cause = s.cause ∧ SameData s t

theorem staysFaulted_tick {s : State} (hp : s.phase = .faulted) : StaysFaulted s s.tick := ⟨hp, rfl, sameData_refl s⟩

/-- Taking a descriptor from HC and answering it with the latched cause. -/
theorem staysFaulted_answer {s : State} (hp : s.phase = .faulted) (rest : List Byte) :
    StaysFaulted s ({ s.tick with hc := rest } : State).afterLatched := ⟨hp, rfl, sameData_refl s⟩

/-- Serving a request on EP writes the record of EP only. -/
theorem staysFaulted_request {s t : State} {i : Instr} {rest : List Byte} (hp : s.phase = .faulted)
    (hc : i.channel = .ep) (h : exec i { s.tick with epPending := rest } = .next t) : StaysFaulted s t := by
  obtain ⟨l, rfl⟩ := engineRequest_frame _ _ _ hc h
  exact ⟨hp, rfl, sameData_refl s⟩

/-- A step of a FAULTED block is the reset asserted now, or leaves it FAULTED. -/
theorem step_faulted {s t : State} (hp : s.phase = .faulted) (h : step s = .next t) :
    (∃ b l, s.resets = ⟨0, b⟩ :: l ∧ t = s.applyReset b l) ∨ StaysFaulted s t := by
  obtain ⟨hn, hreset | ⟨hdue, hcase⟩⟩ := step_cases h
  · exact .inl hreset
  right
  rcases hcase with ⟨rfl, -⟩ | ⟨why, rest, he, hd, -⟩ | ⟨i, rest, -, hd, hexec⟩ | ⟨i, rest, -, hd, hexec⟩
  · exact staysFaulted_tick hp
  · rw [step_illegal_next hn hdue he hd, if_pos hp] at h
    cases h
    exact staysFaulted_answer hp rest
  · obtain ⟨-, hc⟩ := wf_of_decode hd
    rw [exec_faulted hc (by exact hp)] at hexec
    cases hexec
    exact staysFaulted_answer hp rest
  · obtain ⟨-, hc⟩ := wf_of_decode hd
    exact staysFaulted_request hp hc hexec

/-! ### The obligations -/

/-- Settles O31: the phase is the first check of the three commands, before any operand is looked at. -/
theorem notInitializedOutsideActive : Obligations.NotInitializedOutsideActive := by
  intro s d tag hidle
  have hact : s.phase ≠ .active := by rcases hidle with hp | hp <;> simp [hp]
  have hp : s.phase ≠ .faulted := by rcases hidle with hp | hp <;> simp [hp]
  exact ⟨exec_firstFailing hp (if_pos hact), exec_firstFailing hp (if_pos hact), exec_firstFailing hp (if_pos hact)⟩

/-- Settles O32: an accepted command does not fault, so that a check has failed, and it decides the whole next state. -/
theorem faultEntryChangesOnlyCauseAndPhase : Obligations.FaultEntryChangesOnlyCauseAndPhase := by
  refine ⟨fun s t i hc hp h ht => ?_, fun s why rest hn hdue he hp hd => ?_⟩
  · cases hf : firstFailing i s with
    | none =>
      obtain ⟨hquiet, -⟩ := (effect_of_exec hc h).accepted_phase_cause hp hf
      exact absurd ht hquiet
    | some c =>
      rw [exec_firstFailing hp hf] at h
      cases h
      exact ⟨c, firstFailing_ne_noFault hf, rfl, sameData_refl s, ⟨rfl, rfl, rfl, rfl, rfl⟩, rfl⟩
  · refine ⟨_, ?_, rfl, sameData_refl s, rfl⟩
    rw [step_illegal_next hn hdue he hd, if_neg hp]

/-- Settles O33, by the two kinds of descriptor and the cases of a step. -/
theorem faultedIsStickyUntilReset : Obligations.FaultedIsStickyUntilReset := by
  refine ⟨fun s i hc hp => exec_faulted hc hp, fun s why rest hn hdue he hp hd => ?_, fun s t hp h => ?_⟩
  · rw [step_illegal_next hn hdue he hd, if_pos hp]
  · rcases step_faulted hp h with ⟨b, l, hr, rfl⟩ | hstays
    · exact .inr ⟨rfl, rfl, b, l, hr⟩
    · exact .inl hstays

/-- Settles O34: FAULTED, then the first failing check, then the effect of the command. -/
theorem firstFailingCheckDecides : Obligations.FirstFailingCheckDecides := by
  refine ⟨fun s i hc => ⟨exec_faulted hc, fun hp c hf => exec_firstFailing hp hf, fun hp hf => ?_⟩,
    fun s why rest hn hdue he hd => step_illegal_next hn hdue he hd⟩
  obtain ⟨t, h, heff⟩ := exec_effect s hc
  obtain ⟨hph, hca⟩ := heff.accepted_phase_cause hp hf
  obtain ⟨st, out, hst, hr⟩ := heff.accepted_response h hp hf
  exact ⟨t, st, out, h, hph, hca, hst, hr⟩

end Sys2Proof.Proofs
end

section
/-! PROOFS. The family 70_reset_and_hazards.md. First what a step does to the host's resets, a reset asserted now and a
reset still to come apart; then the obligations. -/

namespace Sys2Proof.Proofs

open Sys2Proof.Machine Sys2Proof.Laws

/-! ### The host's resets over a step (R200, R204; log 5) -/

/-- A reset with steps left before it is not asserted now. -/
theorem resetDue_of_resets_succ {s : State} {n : Nat} {b : List Byte} {l : List ResetInput}
    (h : s.resets = ⟨n + 1, b⟩ :: l) : s.resetDue = false := by
  simp [State.resetDue, h]

/-- An illegal descriptor changes neither NSIZE nor the engine nor the host's inputs, whether or not the block is
FAULTED. -/
theorem illegalCommand_sameSurroundings {s t : State} (h : illegalCommand s = .next t) : SameSurroundings s t := by
  rw [illegalCommand_eq] at h
  cases h
  split <;> exact ⟨rfl, rfl, rfl, rfl, rfl⟩

/-- The step that takes a reset leaves the host the resets after it. -/
theorem step_resets_of_due {s t : State} (hd : s.resetDue = true) (h : step s = .next t) :
    t.resets = s.resets.tail := by
  obtain ⟨-, ⟨b, l, hr, rfl⟩ | ⟨hd', -⟩⟩ := step_cases h
  · rw [hr, applyReset_resets, List.tail_cons]
  · rw [hd] at hd'
    cases hd'

/-- Every other step counts the resets down, whatever it finds: nothing that runs after the count touches them. -/
theorem step_resets_of_not_due {s t : State} (hd : s.resetDue = false) (h : step s = .next t) :
    t.resets = countDown s.resets := by
  obtain ⟨-, ⟨b, l, hr, -⟩ | ⟨-, hcase⟩⟩ := step_cases h
  · rw [(resetDue_iff s).2 ⟨b, l, hr⟩] at hd
    cases hd
  rcases hcase with ⟨rfl, -⟩ | ⟨why, rest, -, -, hi⟩ | ⟨i, rest, -, -, he⟩ | ⟨i, rest, -, -, he⟩
  · exact tick_resets s
  · obtain ⟨-, -, -, hresets, -⟩ := illegalCommand_sameSurroundings hi
    exact hresets
  · obtain ⟨-, -, -, hresets, -⟩ := exec_sameSurroundings he
    exact hresets
  · obtain ⟨-, -, -, hresets, -⟩ := exec_sameSurroundings he
    exact hresets

/-! ### The obligations -/

/-- Settles O11: the reset is found before anything that stands on a channel, and it writes every field. -/
theorem resetInputRestoresTheResetState : Obligations.ResetInputRestoresTheResetState := by
  intro s sent later hn hr
  rw [step_reset hn hr, State.applyReset, State.reset]

/-- Settles O12, by whether a reset is asserted now; one that is still to come is nearer by the step. -/
theorem resetMayFallBetweenAnyTwoSteps : Obligations.ResetMayFallBetweenAnyTwoSteps := by
  refine ⟨fun s t h => ?_, fun s n sent later hr => ⟨resetDue_of_resets_succ hr, ?_⟩⟩
  · split
    case isTrue hd => exact step_resets_of_due hd h
    case isFalse hd => exact step_resets_of_not_due (by simpa using hd) h
  · rw [hr, countDown_cons, Nat.add_sub_cancel]

end Sys2Proof.Proofs
end

section
/-! PROOFS. The family other: the descriptors written out byte by byte. Five of them are encodings, which decoding
inverts; the sixth is a header that is no command, with the payload it announces. -/

namespace Sys2Proof.Proofs

open Sys2Proof.Machine Sys2Proof.Laws

/-- Bytes that are the encoding of a well-formed instruction and a rest decode to the two. -/
theorem decode_of_eq_encode {i : Instr} {bs rest : List Byte} (hw : i.wf = true) (hb : bs = encode i ++ rest) :
    decode i.channel bs = .instr i rest := by
  rw [hb]
  exact decodeOfEncodeIsTheInstruction i rest hw

/-- The header of a NEXT with a nonce of one byte. -/
def nextWithNonceHeader : Block := cmdHeader 0x20 1 0

/-- NEXT takes no nonce (30_encoding.md R84). -/
theorem commandOf_nextWithNonceHeader : commandOf nextWithNonceHeader = .error .nonceOperand := by decide

/-- Settles O1: the legal descriptors are the encodings of what they stand for, and the last is an illegal header
with the one payload byte it announces. -/
theorem handWrittenWordsDecode : Obligations.HandWrittenWordsDecode := by
  refine ⟨?tagsize, ?initVfy, ?next, ?finDec, ?engDerive, ?illegalNext⟩
  case tagsize => exact decode_of_eq_encode (i := .tagsize) (by decide) (by decide)
  case initVfy => exact decode_of_eq_encode (i := .initVfy [0xCA, 0xFE] [0xAA]) (by decide) (by decide)
  case next => exact decode_of_eq_encode (i := .next [0x01, 0x02, 0x03]) (by decide) (by decide)
  case finDec => exact decode_of_eq_encode (i := .finDec [0xFF]) (by decide) (by decide)
  case engDerive => exact decode_of_eq_encode (i := .engDerive [0xCA, 0xFE]) (by decide) (by decide)
  case illegalNext =>
    have hlen : [(0xAB : Byte)].length = (hdrNlen nextWithNonceHeader).toNat + (hdrDlen nextWithNonceHeader).toNat := by
      decide
    exact decode_illegal [0x01] commandOf_nextWithNonceHeader hlen

end Sys2Proof.Proofs
end
